-- ==== Sys2Proof/Word.lean ====
section
/-! DEFINITION. The words of the host port: 32-bit data (spec/20_memory.md R40) and 11-bit word indices. -/

namespace Sys2Proof

/-- One word of the host port, of a control word and of a limb (R40, R44). -/
abbrev Word := BitVec 32

/-- A word index, 0x000 to 0x7FF (R40). -/
abbrev Addr := BitVec 11

end Sys2Proof
end

