-- ==== Sys2Proof/Config.lean ====
section
/-! DEFINITION. The one parameter of the engine, L, and the numbers it fixes (spec/00_scope.md R4). -/

namespace Sys2Proof.Config

/-- The number of limbs of the build whose reset state is `State.reset`. DESIGN CHOICE, unsafe (log 1): R4 leaves L open;
this is the L of the spec's test vectors. Every other build is `State.resetOf L`. -/
def limbs : Nat := 2

/-- `1 ≤ L ≤ 256` (R4). -/
def legalLimbs (L : Nat) : Bool := decide (1 ≤ L ∧ L ≤ 256)

/-- `W = 32*L`, the width of a big register (R4). -/
def width (L : Nat) : Nat := 32 * L

/-- `MIN = -2^(W-1)` (R4). -/
def minInt (L : Nat) : Int := -((2 ^ (width L - 1) : Nat) : Int)

/-- `MAX = 2^(W-1) - 1` (R4). -/
def maxInt (L : Nat) : Int := ((2 ^ (width L - 1) : Nat) : Int) - 1

/-- `fits(z)` of 00_scope.md section 5: `MIN ≤ z ≤ MAX`. -/
abbrev fits (L : Nat) (z : Int) : Prop := minInt L ≤ z ∧ z ≤ maxInt L

end Sys2Proof.Config
end

