-- ==== Sys2Proof/Syntax.lean ====
section
/-! DEFINITION. The commands (spec/30_encoding.md R62), the big registers (10_state.md R10) and the host-script
notation (30_encoding.md R66, R67). -/

namespace Sys2Proof

/-- The four commands, one constructor per row of opcode_table.json; no command has an operand field (R62, R63). -/
inductive Instr where
  | egcd
  | modexp
  | modinv
  | privkey
  deriving DecidableEq, Repr

/-- The big registers, numbers 0 to 5 in this order (10_state.md R10). -/
inductive BigReg where
  | A | B | C | R0 | R1 | R2
  deriving DecidableEq, Repr

/-- The number of a big register (10_state.md R10). -/
def BigReg.number : BigReg → Nat
  | .A => 0 | .B => 1 | .C => 2 | .R0 => 3 | .R1 => 4 | .R2 => 5

/-- A, B, C: the registers the host writes (10_state.md R11). -/
def BigReg.isOperand : BigReg → Bool
  | .A | .B | .C => true
  | .R0 | .R1 | .R2 => false

/-- What a script names as an operation: a command, or one of the two names of MODEXP (30_encoding.md R67). -/
inductive ScriptOp where
  | instr (i : Instr)
  | encrypt
  | decrypt
  deriving DecidableEq, Repr

/-- One line of the host-script notation (30_encoding.md R66, R67). -/
inductive Line where
  | wr (addr : Addr) (v : Word)
  | rd (addr : Addr)
  | op (o : ScriptOp)
  | set (X : BigReg) (z : Int)
  | get (X : BigReg)
  | wait
  | stat
  | cmdw (v : Word)
  | call (o : ScriptOp)
  deriving DecidableEq, Repr

end Sys2Proof
end

