-- ==== Sys2Proof/WellFormed.lean ====
section
/-! DEFINITION. Which terms are well formed. An `Instr` has no field that could be ill formed (spec/30_encoding.md
R63); a script line may name a register SET cannot load, or a value that does not fit (R67). -/

namespace Sys2Proof

/-- Every command is well formed: it carries no operand (R63). -/
def Instr.wf : Instr → Bool
  | .egcd => true
  | .modexp => true
  | .modinv => true
  | .privkey => true

/-- A script line for a build of `L` limbs: `SET X, z` needs X among A, B, C and `fits(z)` (R67). -/
def Line.wf (L : Nat) : Line → Bool
  | .set X z => X.isOperand && decide (Config.fits L z)
  | .wr _ _ => true
  | .rd _ => true
  | .op _ => true
  | .get _ => true
  | .wait => true
  | .stat => true
  | .cmdw _ => true
  | .call _ => true

end Sys2Proof
end

