-- ==== Sys2Proof/Decode.lean ====
section
/-! DEFINITION. The command word: decoder, total on all 2^32 words, and encoder (spec/30_encoding.md R60 to R64). -/

namespace Sys2Proof

/-- Why a word is illegal (R64). -/
inductive Illegal where
  /-- A nonzero bit in 31:4. -/
  | reservedBits
  /-- OP is 0 or 5 to 15. -/
  | opcode (op : BitVec 4)
  deriving DecidableEq, Repr

/-- Bits 31:4, the field ZERO (R60). -/
def zeroField (w : Word) : BitVec 28 := w.extractLsb' 4 28

/-- Bits 3:0, the field OP (R60). -/
def opField (w : Word) : BitVec 4 := w.extractLsb' 0 4

/-- The opcode map (R62). -/
def decodeOp (op : BitVec 4) : Except Illegal Instr :=
  match op.toNat with
  | 1 => .ok .egcd
  | 2 => .ok .modexp
  | 3 => .ok .modinv
  | 4 => .ok .privkey
  | _ => .error (.opcode op)

/-- A word is legal when bits 31:4 are zero and OP is 1 to 4 (R61); every other word is rejected by name. -/
def decode (w : Word) : Except Illegal Instr :=
  if zeroField w = 0 then decodeOp (opField w) else .error .reservedBits

/-- The operation code of a command (R62). -/
def opcode : Instr → BitVec 4
  | .egcd => 1
  | .modexp => 2
  | .modinv => 3
  | .privkey => 4

/-- The command word: ZERO in bits 31:4, OP in bits 3:0 (R60). -/
def encode (i : Instr) : Word := (0#28 ++ opcode i : BitVec 32)

/-- What the decoder reads from a row of opcode_table.json: one word of 32 bits, bits above `nbits` zero. -/
def decodeTableWord (nbits w : Nat) : Option Instr :=
  if nbits ≤ 32 ∧ w < 2 ^ nbits then (decode (BitVec.ofNat 32 w)).toOption else none

end Sys2Proof
end

