-- ==== Sys2Proof/Machine/State.lean ====
section
/-! DEFINITION. The state of the engine (spec/10_state.md) and, beside it, the schedule of the agents around it
(spec/00_scope.md R7), as plain data; the state after reset (10_state.md R29). -/

namespace Sys2Proof.Machine

/-- The value of STATUS.ERR (spec/60_exceptions.md R130). -/
inductive Err where
  | noError
  | invalidInput
  | contractViolation
  | illegalCmd
  | range
  deriving DecidableEq, Repr

/-- The sequencer (10_state.md R24). -/
inductive Seq where
  | IDLE
  | START
  | MODEXP_ITER
  | EGCD_ITER
  deriving DecidableEq, Repr

/-- Which finish rule applies when the Euclidean loop ends (10_state.md R25). -/
inductive Finish where
  | FIN_EGCD
  | FIN_INV
  deriving DecidableEq, Repr

/-- One atomic turn of one of the three agents (00_scope.md R7, 20_memory.md R50). -/
inductive Turn where
  /-- The host reads the word at a word index (20_memory.md R45). -/
  | read (addr : Addr)
  /-- The host writes the word at a word index (20_memory.md R46). -/
  | write (addr : Addr) (v : Word)
  /-- A read of `bytes` bytes on a byte-addressed bus (20_memory.md R44, R49). -/
  | busRead (byteAddr bytes : Nat)
  /-- A write of `bytes` bytes on a byte-addressed bus (20_memory.md R44, R49). -/
  | busWrite (byteAddr bytes : Nat) (v : Word)
  /-- One pass of the host's polling loop WAIT (30_encoding.md R67; log 11). -/
  | wait
  /-- The reset input fires (70_reset_and_hazards.md R150). -/
  | reset
  /-- One engine step (40_command_lifecycle.md R77, R78). -/
  | engine
  /-- The engine runs to the completion of its command in one step (40_command_lifecycle.md R84). -/
  | command
  deriving DecidableEq, Repr

/-- The machine. Register names are the spec's; a big register is the list of its limbs, limb 0 first (20_memory.md R43). -/
structure State where
  /-- The build's number of limbs (00_scope.md R4), read through INFO; nothing changes it (log 1). -/
  L : Nat
  A : List Word
  B : List Word
  C : List Word
  R0 : List Word
  R1 : List Word
  R2 : List Word
  CMD : Word
  BUSY : Bool
  DONE : Bool
  ERR : Err
  SEQ : Seq
  ACC : Int
  BS : Int
  EX : Int
  MD : Int
  I : Nat
  RA : Int
  RB : Int
  SA : Int
  SB : Int
  TA : Int
  TB : Int
  FIN : Finish
  /-- What the agents do next, in order (the model's own field, log 2). -/
  turns : List Turn
  /-- The values HostRead has returned to the host, newest first (the model's own field, log 6). -/
  reads : List Word
  deriving DecidableEq, Repr

/-- Nothing stops this machine: every error of the spec is a command that ends by error completion and leaves the engine
ready for the next one (60_exceptions.md R136, R142). So there is no fault. -/
inductive Fault where
  deriving DecidableEq, Repr

/-- Why a step has no meaning. -/
inductive Refusal where
  /-- An arm of `exec` without a meaning yet; raised by no arm of this model. Safe. -/
  | notModelled (mnemonic : String)
  /-- A bus access that is not one naturally aligned 32-bit word: it never reaches the block (20_memory.md R49).
  Raised by the turns `busRead` and `busWrite`. Safe. -/
  | notOneWord
  /-- A bus access beyond the 2048 words of the register space (20_memory.md R40): it is not the block's. Raised by the
  turns `busRead` and `busWrite`. Safe. -/
  | outsideRegisterSpace
  deriving DecidableEq, Repr

/-- The state after reset of a build of `L` limbs (10_state.md R29). The working registers, which R29 leaves unspecified,
and the two fields of the agents hold the values log 4, log 2 and log 6 name (DESIGN CHOICE, unsafe). -/
def State.resetOf (L : Nat) : State where
  L := L
  A := List.replicate L 0#32
  B := List.replicate L 0#32
  C := List.replicate L 0#32
  R0 := List.replicate L 0#32
  R1 := List.replicate L 0#32
  R2 := List.replicate L 0#32
  CMD := 0
  BUSY := false
  DONE := false
  ERR := .noError
  SEQ := .IDLE
  ACC := 0
  BS := 0
  EX := 0
  MD := 0
  I := 0
  RA := 0
  RB := 0
  SA := 0
  SB := 0
  TA := 0
  TB := 0
  FIN := .FIN_EGCD
  turns := []
  reads := []

/-- The state after reset of the build `Config.limbs` (log 1). -/
def State.reset : State := State.resetOf Config.limbs

end Sys2Proof.Machine
end

