-- ==== Sys2Proof/Machine/Flags.lean ====
section
/-! DEFINITION. The words STATUS and INFO. The engine has no arithmetic flags (spec/10_state.md R22); the status bits are
BUSY, DONE and ERR (R16). -/

namespace Sys2Proof.Machine

/-- `code(E)` (60_exceptions.md R130). -/
def Err.code : Err → BitVec 4
  | .noError => 0
  | .invalidInput => 1
  | .contractViolation => 2
  | .illegalCmd => 3
  | .range => 4

/-- The STATUS word: ERR in 7:4, DONE in 1, BUSY in 0, zeros elsewhere (10_state.md R16; held as fields,
DEDUCED, safe, log 9). -/
def State.status (s : State) : Word :=
  (0#24 ++ s.ERR.code ++ 0#2 ++ BitVec.ofBool s.DONE ++ BitVec.ofBool s.BUSY : BitVec 32)

/-- The INFO word: LIMBS = L in 15:0, zeros in 31:16 (10_state.md R21). -/
def State.info (s : State) : Word := (0#16 ++ BitVec.ofNat 16 s.L : BitVec 32)

end Sys2Proof.Machine
end

