-- ==== Sys2Proof/Machine/Operands.lean ====
section
/-! DEFINITION. Operands: the signed integer a big register holds, its limbs, and the arithmetic notation every rule
uses (spec/00_scope.md section 5 and R6, 20_memory.md R43). -/

namespace Sys2Proof.Machine

/-- `fdiv(n, d) = floor(n / d)` (R6); no rule uses the value at `d = 0` (DESIGN CHOICE, safe, log 13). -/
def fdiv (n d : Int) : Int := Int.fdiv n d

/-- `fmod(n, d) = n - d*fdiv(n, d)` (R6). -/
def fmod (n d : Int) : Int := n - d * fdiv n d

/-- `bitlen(e)`: 0 for 0, else the k with `2^(k-1) ≤ e < 2^k` (00_scope.md section 5). -/
def bitlen (e : Int) : Nat := if e = 0 then 0 else Nat.log2 e.toNat + 1

/-- `bit(e, i) = fmod(fdiv(e, 2^i), 2)` (00_scope.md section 5). -/
def bit (e : Int) (i : Nat) : Int := fmod (fdiv e ((2 ^ i : Nat) : Int)) 2

/-- `zext_W` of a big register: the sum over k of `limb(X, k) * 2^(32k)` (R43). -/
def zextLimbs : List Word → Nat
  | [] => 0
  | w :: ws => w.toNat + 2 ^ 32 * zextLimbs ws

/-- `sext_W`: subtract `2^W` if bit `W-1` is 1 (00_scope.md section 5). -/
def sextLimbs (ws : List Word) : Int :=
  if 2 * zextLimbs ws < 2 ^ (32 * ws.length) then (zextLimbs ws : Int)
  else (zextLimbs ws : Int) - ((2 ^ (32 * ws.length) : Nat) : Int)

/-- `enc_W(z)` as `L` limbs, limb 0 first: limb k is bits `32k+31 : 32k` of z (00_scope.md section 5, R43). -/
def encLimbs : Nat → Int → List Word
  | 0, _ => []
  | n + 1, z => BitVec.ofInt 32 z :: encLimbs n (fdiv z 4294967296)

/-- The limbs of a big register (10_state.md R10). -/
def State.big (s : State) : BigReg → List Word
  | .A => s.A
  | .B => s.B
  | .C => s.C
  | .R0 => s.R0
  | .R1 => s.R1
  | .R2 => s.R2

/-- Replace the limbs of a big register. -/
def State.setBig (s : State) (X : BigReg) (ws : List Word) : State :=
  match X with
  | .A => { s with A := ws }
  | .B => { s with B := ws }
  | .C => { s with C := ws }
  | .R0 => { s with R0 := ws }
  | .R1 => { s with R1 := ws }
  | .R2 => { s with R2 := ws }

/-- `x[i]`: a big register read as a signed integer (00_scope.md section 5). -/
def State.x (s : State) (X : BigReg) : Int := sextLimbs (s.big X)

end Sys2Proof.Machine
end

