-- ==== Sys2Proof/Machine/Ops.lean ====
section
/-! DEFINITION. What all commands share: acceptance, normal completion, error completion (the whole of "taking an
exception" here, spec/60_exceptions.md R136; leaving it is the next acceptance, R142), the host port, and reset. -/

namespace Sys2Proof.Machine

/-- The zero of a big register of `L` limbs. -/
def zeroLimbs (L : Nat) : List Word := List.replicate L 0#32

/-- `accept(v)` (40_command_lifecycle.md R75). -/
def accept (s : State) (v : Word) : State :=
  { s with
    CMD := v
    R0 := zeroLimbs s.L
    R1 := zeroLimbs s.L
    R2 := zeroLimbs s.L
    BUSY := true
    DONE := false
    ERR := .noError
    SEQ := .START }

/-- `complete(r0, r1, r2)` (40_command_lifecycle.md R80); each caller establishes that the three values
fit. The working registers stay as they were (DESIGN CHOICE, unsafe, log 5). -/
def complete (s : State) (r0 r1 r2 : Int) : State :=
  { s with
    R0 := encLimbs s.L r0
    R1 := encLimbs s.L r1
    R2 := encLimbs s.L r2
    BUSY := false
    DONE := true
    ERR := .noError
    SEQ := .IDLE }

/-- `raise E`, error completion (60_exceptions.md R136). -/
def raise (s : State) (e : Err) : State :=
  { s with
    R0 := zeroLimbs s.L
    R1 := zeroLimbs s.L
    R2 := zeroLimbs s.L
    BUSY := false
    DONE := true
    ERR := e
    SEQ := .IDLE }

/-- Which big register has the 256-word window number `addr[10:8]` (20_memory.md R42). -/
def windowReg : Nat → Option BigReg
  | 1 => some .A
  | 2 => some .B
  | 3 => some .C
  | 4 => some .R0
  | 5 => some .R1
  | 6 => some .R2
  | _ => none

/-- `addr[10:8]` (20_memory.md R45). -/
def windowOf (addr : Addr) : Nat := addr.toNat / 256

/-- `addr[7:0]` (20_memory.md R45). -/
def limbOf (addr : Addr) : Nat := addr.toNat % 256

/-- The word index of limb `k` of a big register: `0x100*(i+1) + k` (20_memory.md R42). -/
def limbAddr (X : BigReg) (k : Nat) : Addr := BitVec.ofNat 11 (256 * (X.number + 1) + k)

/-- `HostRead(addr)` (20_memory.md R45); total also on registers of another length than L (DESIGN CHOICE, safe, log 12). -/
def hostRead (s : State) (addr : Addr) : Word :=
  if addr = 0x000#11 then s.CMD
  else if addr = 0x001#11 then s.status
  else if addr = 0x002#11 then s.info
  else
    match windowReg (windowOf addr) with
    | some X => if limbOf addr < s.L then (s.big X).getD (limbOf addr) 0#32 else 0#32
    | none => 0#32

/-- `HostWrite(addr, v)` (20_memory.md R46). -/
def hostWrite (s : State) (addr : Addr) (v : Word) : State :=
  if s.BUSY then s
  else if addr = 0x000#11 then accept s v
  else
    match windowReg (windowOf addr) with
    | some X =>
      if X.isOperand && decide (limbOf addr < s.L) then s.setBig X ((s.big X).set (limbOf addr) v) else s
    | none => s

/-- The value a read returned goes to the host (20_memory.md R41; DESIGN CHOICE, safe, log 6). -/
def returnWord (s : State) (v : Word) : State := { s with reads := v :: s.reads }

/-- Another list of turns to come (log 2). -/
def State.withTurns (s : State) (ts : List Turn) : State := { s with turns := ts }

/-- The reset input (70_reset_and_hazards.md R150): the whole state at the values of 10_state.md R29, INFO as before. What
the agents outside do next, and what the host has read, are not the engine's state. -/
def resetInput (s : State) : State := { State.resetOf s.L with turns := s.turns, reads := s.reads }

/-- The word index a bus access of one naturally aligned 32-bit word reaches (20_memory.md R44), and why another access
reaches none (R49, R40; DEDUCED, safe, log 10). -/
def busWord (byteAddr bytes : Nat) : Except Refusal Addr :=
  if bytes = 4 ∧ byteAddr % 4 = 0 then
    if byteAddr / 4 < 2048 then .ok (BitVec.ofNat 11 (byteAddr / 4)) else .error .outsideRegisterSpace
  else .error .notOneWord

end Sys2Proof.Machine
end

