-- ==== Sys2Proof/Machine/Result.lean ====
section
/-! DEFINITION. The outcome of a command as a value (spec/40_command_lifecycle.md R82): `Exec(w, a, b, c) = (err, r0, r1, r2)`. -/

namespace Sys2Proof.Machine

/-- `(err, r0, r1, r2)` (R82). -/
structure Result where
  err : Err
  r0 : Int
  r1 : Int
  r2 : Int
  deriving DecidableEq, Repr

/-- The outcome of a command that ends with error `e`: `(e, 0, 0, 0)` (R82). -/
def Result.error (e : Err) : Result := ⟨e, 0, 0, 0⟩

/-- The outcome of a command that completes normally. -/
def Result.normal (r0 r1 r2 : Int) : Result := ⟨.noError, r0, r1, r2⟩

/-- A command ends by normal completion (R80) or by error completion (60_exceptions.md R136), with this outcome. -/
def finishWith (s : State) (r : Result) : State :=
  if r.err = .noError then complete s r.r0 r.r1 r.r2 else raise s r.err

end Sys2Proof.Machine
end

