-- ==== Sys2Proof/Machine/Euclid.lean ====
section
/-! DEFINITION. The Euclidean loop that EGCD, MODINV and PRIVKEY share (spec/41_egcd.md R93, R94), its two finishes
(R94, 43_modinv.md R117), and the loop as a function of integers. -/

namespace Sys2Proof.Machine

/-- `EGCD_FINISH()` (41_egcd.md R94). -/
def egcdFinish (s : State) : State :=
  if Config.fits s.L s.RA ∧ Config.fits s.L s.SA ∧ Config.fits s.L s.TA then complete s s.RA s.SA s.TA
  else raise s .range

/-- `d` of the inverse finish: a negative coefficient gets the modulus added once (43_modinv.md R117). -/
def normalizeOnce (x m : Int) : Int := if x < 0 then x + m else x

/-- `INV_FINISH()` (43_modinv.md R117). -/
def invFinish (s : State) : State :=
  if s.RA.natAbs ≠ 1 then raise s .contractViolation
  else if Config.fits s.L (normalizeOnce s.SA s.MD) then complete s (normalizeOnce s.SA s.MD) 0 0
  else raise s .range

/-- One pass of the loop branch: the three pair assignments with one quotient (41_egcd.md R93). -/
def euclidPass (s : State) : State :=
  { s with
    RA := s.RB
    RB := s.RA - fdiv s.RA s.RB * s.RB
    SA := s.SB
    SB := s.SA - fdiv s.RA s.RB * s.SB
    TA := s.TB
    TB := s.TA - fdiv s.RA s.RB * s.TB }

/-- The EGCD iteration step (41_egcd.md R93). -/
def egcdIter (s : State) : State :=
  if s.RB = 0 then
    match s.FIN with
    | .FIN_EGCD => egcdFinish s
    | .FIN_INV => invFinish s
  else euclidPass s

/-- At most `n` EGCD iteration steps, as long as `SEQ = EGCD_ITER`. -/
def egcdSteps : Nat → State → State
  | 0, s => s
  | n + 1, s => if s.SEQ = .EGCD_ITER then egcdSteps n (egcdIter s) else s

/-- The rest of a command in the Euclidean loop: `|RB|` shrinks in every pass, so `|RB| + 1` steps are enough
(41_egcd.md R95; DEDUCED, safe, log 14). -/
def egcdRest (s : State) : State := egcdSteps (s.RB.natAbs + 1) s

/-- The six variables of the loop as a function (41_egcd.md R94). -/
structure EuclidVars where
  r0 : Int
  r1 : Int
  s0 : Int
  s1 : Int
  t0 : Int
  t1 : Int
  deriving DecidableEq, Repr

/-- The body of the `while` loop (41_egcd.md R94). -/
def euclidBody (v : EuclidVars) : EuclidVars where
  r0 := v.r1
  r1 := v.r0 - fdiv v.r0 v.r1 * v.r1
  s0 := v.s1
  s1 := v.s0 - fdiv v.r0 v.r1 * v.s1
  t0 := v.t1
  t1 := v.t0 - fdiv v.r0 v.r1 * v.t1

/-- `while r1 != 0`, at most `n` passes. -/
def euclidWhile : Nat → EuclidVars → EuclidVars
  | 0, v => v
  | n + 1, v => if v.r1 = 0 then v else euclidWhile n (euclidBody v)

/-- `EGCD_CORE(a, b)` (43_modinv.md R118): the loop of 41_egcd.md R94 from `(a, b, 1, 0, 0, 1)`; `|b|` passes are enough. -/
def egcdCore (a b : Int) : EuclidVars := euclidWhile b.natAbs ⟨a, b, 1, 0, 0, 1⟩

end Sys2Proof.Machine
end

