-- ==== Sys2Proof/Machine/Egcd.lean ====
section
/-! DEFINITION. The command EGCD (spec/41_egcd.md). -/

namespace Sys2Proof.Machine

/-- `EGCD_START(a, b)` (R91); the triple EGCD returns is that of the loop of R91 to R94 (DEDUCED, unsafe, log 8). -/
def egcdStart (s : State) : State :=
  if s.x .A = 0 ∧ s.x .B = 0 then raise s .invalidInput
  else
    { s with
      RA := s.x .A
      RB := s.x .B
      SA := 1
      SB := 0
      TA := 0
      TB := 1
      FIN := .FIN_EGCD
      SEQ := .EGCD_ITER }

/-- EGCD, from the START step to completion (R91, R93, R94; one engine step by 40_command_lifecycle.md R84). -/
def execEgcd (s : State) : Host.Outcome State Fault Refusal := .next (egcdRest (egcdStart s))

/-- `EGCD_RESULT(a, b)` (R94). -/
def egcdResult (L : Nat) (a b : Int) : Result :=
  if a = 0 ∧ b = 0 then Result.error .invalidInput
  else if Config.fits L (egcdCore a b).r0 ∧ Config.fits L (egcdCore a b).s0 ∧ Config.fits L (egcdCore a b).t0 then
    Result.normal (egcdCore a b).r0 (egcdCore a b).s0 (egcdCore a b).t0
  else Result.error .range

end Sys2Proof.Machine
end

