-- ==== Sys2Proof/Machine/Modexp.lean ====
section
/-! DEFINITION. The command MODEXP (spec/42_modexp.md); ENCRYPT and DECRYPT are other names of it (R108). -/

namespace Sys2Proof.Machine

/-- `MODEXP_START(base, exponent, modulus)` (R101). -/
def modexpStart (s : State) : State :=
  if s.x .B < 0 ∨ s.x .C ≤ 0 then raise s .invalidInput
  else
    { s with
      MD := s.x .C
      EX := s.x .B
      BS := fmod (s.x .A) (s.x .C)
      ACC := 1
      I := bitlen (s.x .B)
      SEQ := .MODEXP_ITER }

/-- What one pass makes of the accumulator: square, then multiply in the base if bit `i` of the exponent is 1, reducing
after each multiplication (R103). -/
def squareMultiply (acc bs ex md : Int) (i : Nat) : Int :=
  if bit ex i = 1 then fmod (fmod (acc * acc) md * bs) md else fmod (acc * acc) md

/-- The MODEXP iteration step (R103). -/
def modexpIter (s : State) : State :=
  if s.I = 0 then complete s s.ACC 0 0
  else { s with I := s.I - 1, ACC := squareMultiply s.ACC s.BS s.EX s.MD (s.I - 1) }

/-- At most `n` MODEXP iteration steps, as long as `SEQ = MODEXP_ITER`. -/
def modexpSteps : Nat → State → State
  | 0, s => s
  | n + 1, s => if s.SEQ = .MODEXP_ITER then modexpSteps n (modexpIter s) else s

/-- The rest of a command in the square-and-multiply loop: `I` passes and the completing step (R105). -/
def modexpRest (s : State) : State := modexpSteps (s.I + 1) s

/-- MODEXP, from the START step to completion (R101, R103; one engine step by 40_command_lifecycle.md R84). -/
def execModexp (s : State) : Host.Outcome State Fault Refusal := .next (modexpRest (modexpStart s))

/-- `for i from n - 1 down to 0` of R104. -/
def modexpFor (bs ex md : Int) : Nat → Int → Int
  | 0, acc => acc
  | i + 1, acc => modexpFor bs ex md i (squareMultiply acc bs ex md i)

/-- `MODEXP_RESULT(base, exponent, modulus)` (R104). -/
def modexpResult (base exponent modulus : Int) : Result :=
  if exponent < 0 ∨ modulus ≤ 0 then Result.error .invalidInput
  else Result.normal (modexpFor (fmod base modulus) exponent modulus (bitlen exponent) 1) 0 0

/-- The recursive form `modpow(b, e, m)` of R110, by fuel, one unit for each halving of `e`. -/
def modpowFuel : Nat → Int → Int → Int → Int
  | 0, _, _, _ => 1
  | n + 1, b, e, m =>
    if e = 0 then 1
    else
      let h := modpowFuel n b (fdiv e 2) m
      let s := fmod (h * h) m
      if fmod e 2 = 1 then fmod (s * b) m else s

/-- `modpow(b, e, m)` (R110): `e` is halved `bitlen(e)` times until it is 0. -/
def modpow (b e m : Int) : Int := modpowFuel (bitlen e) b e m

end Sys2Proof.Machine
end

