-- ==== Sys2Proof/Machine/Modinv.lean ====
section
/-! DEFINITION. The commands MODINV and PRIVKEY (spec/43_modinv.md). -/

namespace Sys2Proof.Machine

/-- `INV_LOAD(a, m)` (R116). -/
def invLoad (s : State) (a m : Int) : State :=
  { s with
    MD := m
    RA := a
    RB := m
    SA := 1
    SB := 0
    TA := 0
    TB := 1
    FIN := .FIN_INV
    SEQ := .EGCD_ITER }

/-- `MODINV_START(a, m)` (R116). -/
def modinvStart (s : State) : State :=
  if s.x .B ≤ 0 then raise s .invalidInput else invLoad s (s.x .A) (s.x .B)

/-- MODINV, from the START step to completion (R116, 41_egcd.md R93, R117; one engine step by 40_command_lifecycle.md R84). -/
def execModinv (s : State) : Host.Outcome State Fault Refusal := .next (egcdRest (modinvStart s))

/-- `phi = (p - 1) * (q - 1)`, the totient of the operands B and C (R121). -/
def totient (p q : Int) : Int := (p - 1) * (q - 1)

/-- `PRIVKEY_START(e, p, q)` (R121). -/
def privkeyStart (s : State) : State :=
  if totient (s.x .B) (s.x .C) ≤ 0 then raise s .invalidInput
  else if Config.fits s.L (totient (s.x .B) (s.x .C)) then invLoad s (s.x .A) (totient (s.x .B) (s.x .C))
  else raise s .range

/-- PRIVKEY, from the START step to completion (R121, 41_egcd.md R93, R117; one engine step by 40_command_lifecycle.md R84). -/
def execPrivkey (s : State) : Host.Outcome State Fault Refusal := .next (egcdRest (privkeyStart s))

/-- `INV_RESULT(a, m)` (R118). -/
def invResult (L : Nat) (a m : Int) : Result :=
  if (egcdCore a m).r0.natAbs ≠ 1 then Result.error .contractViolation
  else if Config.fits L (normalizeOnce (egcdCore a m).s0 m) then Result.normal (normalizeOnce (egcdCore a m).s0 m) 0 0
  else Result.error .range

/-- `MODINV_RESULT(a, m)` (R118). -/
def modinvResult (L : Nat) (a m : Int) : Result :=
  if m ≤ 0 then Result.error .invalidInput else invResult L a m

/-- `PRIVKEY_RESULT(e, p, q)` (R122). -/
def privkeyResult (L : Nat) (e p q : Int) : Result :=
  if totient p q ≤ 0 then Result.error .invalidInput
  else if Config.maxInt L < totient p q then Result.error .range
  else invResult L e (totient p q)

end Sys2Proof.Machine
end

