-- ==== Sys2Proof/Machine/Dispatch.lean ====
section
/-! DEFINITION. What each command does when the engine runs it, from its START step to its completion (spec/40_command_lifecycle.md R82, R84). -/

namespace Sys2Proof.Machine

def exec (i : Instr) (s : State) : Host.Outcome State Fault Refusal :=
  match i with
  | .egcd => Sys2Proof.Machine.execEgcd s
  | .modexp => Sys2Proof.Machine.execModexp s
  | .modinv => Sys2Proof.Machine.execModinv s
  | .privkey => Sys2Proof.Machine.execPrivkey s

end Sys2Proof.Machine
end

