-- ==== Sys2Proof/Machine/Engine.lean ====
section
/-! DEFINITION. The engine as an agent (spec/40_command_lifecycle.md R77, R78, R83), at both grains: one engine step, and a
whole command (R84); the outcome of a command word as a function (R82). -/

namespace Sys2Proof.Machine

/-- The `*_START` of each command (R77). -/
def startOf (i : Instr) (s : State) : State :=
  match i with
  | .egcd => egcdStart s
  | .modexp => modexpStart s
  | .modinv => modinvStart s
  | .privkey => privkeyStart s

/-- The START step (R77): decode CMD, then start its command; an illegal word ends by IllegalCmd (30_encoding.md R64). -/
def startStep (s : State) : State :=
  match decode s.CMD with
  | .ok i => startOf i s
  | .error _ => raise s .illegalCmd

/-- The one engine step that is enabled while `BUSY = 1` (R77, R78); none is while `BUSY = 0` (10_state.md R17), and
then nothing changes (DEDUCED, safe, log 15). -/
def engineStep (s : State) : State :=
  if s.BUSY then
    match s.SEQ with
    | .IDLE => s
    | .START => startStep s
    | .MODEXP_ITER => modexpIter s
    | .EGCD_ITER => egcdIter s
  else s

/-- `n` engine steps, with no host access and no reset between them. -/
def engineSteps : Nat → State → State
  | 0, s => s
  | n + 1, s => engineSteps n (engineStep s)

/-- The engine runs its command to completion (R84): from START, `exec` of the command CMD decodes to; inside a loop, the
rest of the loop (DEDUCED, safe, log 7). -/
def commandStep (s : State) : Host.Outcome State Fault Refusal :=
  if s.BUSY then
    match s.SEQ with
    | .IDLE => .next s
    | .START =>
      match decode s.CMD with
      | .ok i => exec i s
      | .error _ => .next (raise s .illegalCmd)
    | .MODEXP_ITER => .next (modexpRest s)
    | .EGCD_ITER => .next (egcdRest s)
  else .next s

/-- `Exec(w, a, b, c)` (R82). -/
def execResult (L : Nat) (w : Word) (a b c : Int) : Result :=
  match decode w with
  | .error _ => Result.error .illegalCmd
  | .ok .egcd => egcdResult L a b
  | .ok .modexp => modexpResult a b c
  | .ok .modinv => modinvResult L a b
  | .ok .privkey => privkeyResult L a b c

end Sys2Proof.Machine
end

