-- ==== Sys2Proof/Machine/Turns.lean ====
section
/-! DEFINITION. One turn of one agent (spec/00_scope.md R7, 20_memory.md R41, R50; 70_reset_and_hazards.md R150). -/

namespace Sys2Proof.Machine

/-- `RD addr`: the word goes to the host, nothing else changes (20_memory.md R45). -/
def readTurn (s : State) (addr : Addr) : State := returnWord s (hostRead s addr)

/-- One pass of WAIT (30_encoding.md R67): read STATUS, and while BUSY is 1 let the engine step and poll again
(DESIGN CHOICE, unsafe, log 11). -/
def waitTurn (s : State) : State :=
  if s.BUSY then (readTurn s 0x001).withTurns (.engine :: .wait :: s.turns) else readTurn s 0x001

/-- One turn, already taken off the list. -/
def takeTurn (t : Turn) (s : State) : Host.Outcome State Fault Refusal :=
  match t with
  | .read addr => .next (readTurn s addr)
  | .write addr v => .next (hostWrite s addr v)
  | .busRead byteAddr bytes =>
    match busWord byteAddr bytes with
    | .ok addr => .next (readTurn s addr)
    | .error r => .refused r
  | .busWrite byteAddr bytes v =>
    match busWord byteAddr bytes with
    | .ok addr => .next (hostWrite s addr v)
    | .error r => .refused r
  | .wait => .next (waitTurn s)
  | .reset => .next (resetInput s)
  | .engine => .next (engineStep s)
  | .command => commandStep s

/-- The turn at the head of the list; an exhausted list lets an enabled engine step be taken (40_command_lifecycle.md R83;
DESIGN CHOICE, unsafe, log 2). -/
def nextTurn (s : State) : Host.Outcome State Fault Refusal :=
  match s.turns with
  | [] => .next (engineStep s)
  | t :: ts => takeTurn t (s.withTurns ts)

/-- A command word placed for the engine: the state acceptance leaves (40_command_lifecycle.md R75), and the engine's turn
to run the command next (DESIGN CHOICE, safe, log 3). -/
def placeWord (s : State) (v : Word) : State := (accept s v).withTurns (.command :: s.turns)

end Sys2Proof.Machine
end

