-- ==== Sys2Proof/Machine/Step.lean ====
section
/-! DEFINITION. One step of the machine: one turn of one agent. -/

namespace Sys2Proof.Machine

/-- One atomic step (spec/00_scope.md R7). -/
def step (s : State) : Host.Outcome State Fault Refusal := nextTurn s

/-- The command word `w` accepted, and the engine's turn to run it (log 3). -/
def State.withFetchWord (s : State) (nbits w : Nat) : State := placeWord s (BitVec.ofNat 32 (w % 2 ^ nbits))

end Sys2Proof.Machine
end

