-- ==== Sys2Proof/Machine/Script.lean ====
section
/-! DEFINITION. The host-script notation as turns of the host (spec/30_encoding.md R66, R67). -/

namespace Sys2Proof.Machine

/-- The command word a script operation writes: ENCRYPT and DECRYPT are MODEXP (R67, 42_modexp.md R108). -/
def scriptWord : ScriptOp → Word
  | .instr i => encode i
  | .encrypt => encode .modexp
  | .decrypt => encode .modexp

/-- `SET X, z`: one write per limb, limb 0 first, from limb `k` on (R67, 20_memory.md R48). -/
def setFrom (X : BigReg) : Nat → List Word → List Turn
  | _, [] => []
  | k, w :: ws => .write (limbAddr X k) w :: setFrom X (k + 1) ws

/-- `GET X`: one read per limb, limb 0 first (R67, 20_memory.md R48). -/
def getTurns (X : BigReg) (L : Nat) : List Turn := (List.range L).map fun k => .read (limbAddr X k)

/-- The host's turns a script line stands for, on a build of `L` limbs (R66, R67). -/
def expand (L : Nat) : Line → List Turn
  | .wr addr v => [.write addr v]
  | .rd addr => [.read addr]
  | .op o => [.write 0x000 (scriptWord o)]
  | .set X z => setFrom X 0 (encLimbs L z)
  | .get X => getTurns X L
  | .wait => [.wait]
  | .stat => [.read 0x001]
  | .cmdw v => [.write 0x000 v]
  | .call o => [.write 0x000 (scriptWord o), .wait]

/-- The turns of a script. -/
def expandAll (L : Nat) (ls : List Line) : List Turn := ls.flatMap (expand L)

end Sys2Proof.Machine
end

