-- ==== Sys2Proof/Safety.lean ====
section
/-! DEFINITION. The terms claims use: the shape of a state, the invariant of spec/10_state.md R30, what the host can see,
and which turns are safe. -/

namespace Sys2Proof.Machine

/-- The registers have the build's width and the build is legal (10_state.md R10, 00_scope.md R4). -/
def State.shape (s : State) : Prop :=
  Config.legalLimbs s.L = true ∧ ∀ X : BigReg, (s.big X).length = s.L

/-- R0, R1 and R2 all read as 0. -/
def State.zeroResults (s : State) : Prop := s.x .R0 = 0 ∧ s.x .R1 = 0 ∧ s.x .R2 = 0

/-- The second integer the START step loads for the Euclidean loop: B for EGCD and MODINV, the totient for PRIVKEY
(41_egcd.md R91, 43_modinv.md R116, R121). -/
def State.secondOperand (s : State) (i : Instr) : Int :=
  match i with
  | .egcd => s.x .B
  | .modexp => s.x .B
  | .modinv => s.x .B
  | .privkey => totient (s.x .B) (s.x .C)

/-- The square-and-multiply loop's part of R30 (e), with what the START step loaded (42_modexp.md R101). -/
def State.modexpInv (s : State) : Prop :=
  decode s.CMD = .ok .modexp ∧
  s.MD = s.x .C ∧ s.EX = s.x .B ∧ s.BS = fmod (s.x .A) (s.x .C) ∧
  0 < s.MD ∧ 0 ≤ s.EX ∧ s.I ≤ bitlen s.EX ∧ 0 ≤ s.BS ∧ s.BS < s.MD ∧
  (s.ACC = 1 ∨ (0 ≤ s.ACC ∧ s.ACC < s.MD))

/-- The Euclidean loop's part of R30 (f), with what the START step loaded: the Bezout identities hold of the two integers
loaded, RA and RB are not both 0, and FIN and MD are those of the command. -/
def State.egcdInv (s : State) : Prop :=
  ∃ i, decode s.CMD = .ok i ∧ i ≠ .modexp ∧
    s.x .A * s.SA + s.secondOperand i * s.TA = s.RA ∧
    s.x .A * s.SB + s.secondOperand i * s.TB = s.RB ∧
    ¬(s.RA = 0 ∧ s.RB = 0) ∧
    (s.FIN = .FIN_EGCD ↔ i = .egcd) ∧
    (i ≠ .egcd → s.MD = s.secondOperand i ∧ 0 < s.MD ∧ Config.fits s.L s.MD)

/-- The invariant of 10_state.md R30, with the shape of the registers. -/
structure State.Inv (s : State) : Prop where
  shape : s.shape
  idle : s.SEQ = .IDLE ↔ s.BUSY = false
  busy : s.BUSY = true → s.DONE = false ∧ s.ERR = .noError ∧ s.zeroResults
  error : s.ERR ≠ .noError → s.DONE = true ∧ s.zeroResults
  modexp : s.SEQ = .MODEXP_ITER → s.modexpInv
  egcd : s.SEQ = .EGCD_ITER → s.egcdInv

/-- The values STATUS takes (10_state.md R20). -/
def legalStatus (w : Word) : Prop :=
  w = 0x00 ∨ w = 0x01 ∨ w = 0x02 ∨ w = 0x12 ∨ w = 0x22 ∨ w = 0x32 ∨ w = 0x42

/-- The state with its working registers cleared: all the host, a later command and the sequencer can depend on
(10_state.md R26). -/
def State.forgetWork (s : State) : State :=
  { s with
    ACC := 0, BS := 0, EX := 0, MD := 0, I := 0, RA := 0, RB := 0, SA := 0, SB := 0, TA := 0, TB := 0, FIN := .FIN_EGCD }

/-- The state with the fields of the agents around the engine cleared. -/
def State.forgetHost (s : State) : State := { s with turns := [], reads := [] }

/-- Command `i` is accepted and not yet started: the START step is enabled (10_state.md R24). -/
def State.starting (s : State) (i : Instr) : Prop := s.BUSY = true ∧ s.SEQ = .START ∧ decode s.CMD = .ok i

/-- A word index at which a command's results show: STATUS and the windows of R0, R1 and R2 (20_memory.md R42). -/
def resultAddr (addr : Addr) : Prop := addr = 0x001 ∨ (0x400 ≤ addr.toNat ∧ addr.toNat < 0x700)

/-- The turn is the write of `v` to the word index `addr`, at the port or over the bus (20_memory.md R46, R44). -/
def Turn.writesWord (t : Turn) (addr : Addr) (v : Word) : Prop :=
  t = .write addr v ∨ ∃ byteAddr bytes, t = .busWrite byteAddr bytes v ∧ busWord byteAddr bytes = .ok addr

/-- A turn that reaches the block: every turn but a bus access of another shape than one word of the register space
(20_memory.md R49). -/
def Turn.reachesBlock : Turn → Bool
  | .busRead a n => decide (n = 4 ∧ a % 4 = 0 ∧ a / 4 < 2048)
  | .busWrite a n _ => decide (n = 4 ∧ a % 4 = 0 ∧ a / 4 < 2048)
  | .read _ => true
  | .write _ _ => true
  | .wait => true
  | .reset => true
  | .engine => true
  | .command => true

/-- The turn writes CMD. -/
def Turn.writesCmd (t : Turn) : Prop := ∃ v, t.writesWord 0x000 v

/-- A safe schedule: every turn reaches the block. -/
def State.safeTurns (s : State) : Prop := ∀ t ∈ s.turns, t.reachesBlock = true

end Sys2Proof.Machine
end

