-- ==== Sys2Proof/Certificates/Slice0/Obligations.lean ====
section
/-! DEFINITION. The statements for the provers, from the numbered rules of spec/. -/

open Sys2Proof Sys2Proof.Machine

/-- R62, R64: the four command words decode to their commands, and the words of 95_test_vectors.md section 2.5 that are
illegal are rejected by name. -/
def Obligations.OpcodeWordsDecode : Prop :=
  decode 0x00000001 = .ok .egcd ∧ decode 0x00000002 = .ok .modexp ∧
  decode 0x00000003 = .ok .modinv ∧ decode 0x00000004 = .ok .privkey ∧
  decode 0x00000000 = .error (.opcode 0) ∧ decode 0x00000005 = .error (.opcode 5) ∧
  decode 0x0000000F = .error (.opcode 15) ∧ decode 0x00000010 = .error .reservedBits ∧
  decode 0x00000012 = .error .reservedBits ∧ decode 0x80000001 = .error .reservedBits ∧
  decode 0xFFFFFFFF = .error .reservedBits

/-- Decoding the word of a command gives the command back, and no other word decodes to it: all 32 bits are fixed (R62). -/
def Obligations.EncodeAndDecodeAgree : Prop :=
  (∀ i : Instr, i.wf = true → decode (encode i) = .ok i) ∧
  ∀ (w : Word) (i : Instr), decode w = .ok i → w = encode i

/-- R61: any word is accepted and stored by a write to CMD while idle; it is legal exactly when bits 31:4 are 0 and bits
3:0 are 1 to 4, which then select the command; the START step of any other word ends with IllegalCmd. -/
def Obligations.EveryWordIsACommandOrIllegal : Prop :=
  ∀ w : Word,
    ((∃ i, decode w = .ok i) ↔ w.toNat / 16 = 0 ∧ 1 ≤ w.toNat % 16 ∧ w.toNat % 16 ≤ 4) ∧
    (∀ i, decode w = .ok i → (opcode i).toNat = w.toNat % 16) ∧
    (∀ s : State, s.BUSY = false →
      (hostWrite s 0x000 w).CMD = w ∧ (hostWrite s 0x000 w).BUSY = true ∧ (hostWrite s 0x000 w).SEQ = .START) ∧
    (∀ s : State, s.BUSY = true → s.SEQ = .START → s.CMD = w → (∀ i, decode w ≠ .ok i) →
      (engineStep s).ERR = .illegalCmd ∧ (engineStep s).BUSY = false ∧ (engineStep s).DONE = true)

/-- A step whose turn is the engine's runs the command CMD decodes to, and the command word placed by `withFetchWord` is
run by the very next step. The turn list moves on by one; nothing else is added around `exec`. -/
def Obligations.StepRunsTheDecodedCommand : Prop :=
  (∀ (s : State) (i : Instr) (ts : List Turn), s.turns = .command :: ts → s.starting i → i.wf = true →
    step s = exec i (s.withTurns ts)) ∧
  ∀ (s : State) (i : Instr), i.wf = true →
    step (s.withFetchWord 32 (encode i).toNat) = exec i (accept s (encode i))

/-- A turn of the engine, and an exhausted turn list, take the one engine step that is enabled (R77, R78): START of the
command CMD decodes to, or one iteration step; while idle none is (R17). -/
def Obligations.EngineTurnTakesTheEnabledStep : Prop :=
  (∀ (s : State) (ts : List Turn), s.turns = .engine :: ts → step s = .next (engineStep (s.withTurns ts))) ∧
  (∀ s : State, s.turns = [] → step s = .next (engineStep s)) ∧
  (∀ (s : State) (i : Instr), s.starting i → engineStep s = startOf i s) ∧
  (∀ s : State, s.BUSY = true → s.SEQ = .MODEXP_ITER → engineStep s = modexpIter s) ∧
  (∀ s : State, s.BUSY = true → s.SEQ = .EGCD_ITER → engineStep s = egcdIter s) ∧
  ∀ s : State, s.BUSY = false → engineStep s = s ∧ commandStep s = .next s

/-- R75: acceptance. -/
def Obligations.AcceptanceEffect : Prop :=
  ∀ (s : State) (v : Word) (ts : List Turn), s.turns = .write 0x000 v :: ts → s.BUSY = false →
    ∃ t, step s = .next t ∧
      t = { s with turns := ts, CMD := v, R0 := List.replicate s.L 0#32, R1 := List.replicate s.L 0#32,
                   R2 := List.replicate s.L 0#32, BUSY := true, DONE := false, ERR := .noError, SEQ := .START } ∧
      t.zeroResults ∧ t.status = 0x00000001

/-- R76, R161: a write while busy changes nothing but the host's own turn list. -/
def Obligations.WritesWhileBusyAreDropped : Prop :=
  ∀ (s : State) (addr : Addr) (v : Word) (ts : List Turn), s.turns = .write addr v :: ts → s.BUSY = true →
    step s = .next (s.withTurns ts)

/-- R45: what every word index reads as, and that a read changes nothing. A limb reads as bits 32k+31:32k of the signed
value of its register (R43). That the word read is kept in `reads`, and the turn taken off `turns`, is the model's choice
(log 6, log 2); that a read changes no state of the engine is R41. -/
def Obligations.HostReadFollowsTheMap : Prop :=
  (∀ (s : State) (addr : Addr) (ts : List Turn), s.turns = .read addr :: ts →
    step s = .next { s with turns := ts, reads := hostRead s addr :: s.reads }) ∧
  ∀ s : State, s.shape →
    hostRead s 0x000 = s.CMD ∧ hostRead s 0x001 = s.status ∧ (hostRead s 0x002).toNat = s.L ∧
    (∀ (addr : Addr) (X : BigReg) (k : Nat), addr.toNat = 0x100 * (X.number + 1) + k → k < s.L →
      hostRead s addr = BitVec.ofInt 32 (s.x X / 2 ^ (32 * k))) ∧
    (∀ addr : Addr, 3 ≤ addr.toNat → addr.toNat < 0x100 ∨ 0x700 ≤ addr.toNat ∨ s.L ≤ addr.toNat % 0x100 →
      hostRead s addr = 0)

/-- R46: what a write to every word index does. A write to a limb replaces that limb and no other bit. -/
def Obligations.HostWriteStoresOneLimb : Prop :=
  ∀ (s : State) (addr : Addr) (v : Word) (ts : List Turn), s.shape → s.turns = .write addr v :: ts →
    (s.BUSY = true → step s = .next (s.withTurns ts)) ∧
    (s.BUSY = false → addr = 0x000 → step s = .next (accept (s.withTurns ts) v)) ∧
    (s.BUSY = false → ∀ (X : BigReg) (k : Nat), addr.toNat = 0x100 * (X.number + 1) + k → k < s.L →
      X.isOperand = true →
      ∃ t, step s = .next t ∧ t = (s.setBig X (t.big X)).withTurns ts ∧ (t.big X).length = s.L ∧
        hostRead t addr = v ∧ ∀ a, a ≠ addr → hostRead t a = hostRead s a) ∧
    (s.BUSY = false → addr ≠ 0x000 →
      (addr.toNat < 0x100 ∨ 0x400 ≤ addr.toNat ∨ s.L ≤ addr.toNat % 0x100) →
      step s = .next (s.withTurns ts))

/-- R16: the fields of STATUS, for the host's read of it, and the reset value. -/
def Obligations.StatusFields : Prop :=
  (∀ s : State,
    (hostRead s 0x001).getLsbD 0 = s.BUSY ∧ (hostRead s 0x001).getLsbD 1 = s.DONE ∧
    (hostRead s 0x001).extractLsb' 2 2 = 0 ∧ (hostRead s 0x001).extractLsb' 4 4 = s.ERR.code ∧
    (hostRead s 0x001).extractLsb' 8 24 = 0) ∧
  (∀ (s : State) (v : Word), hostWrite s 0x001 v = s) ∧
  ∀ s : State, hostRead (resetInput s) 0x001 = 0x00000000

/-- R20: the STATUS values that occur, in every state of the invariant. -/
def Obligations.StatusIsOneOfSeven : Prop :=
  ∀ s : State, s.Inv →
    legalStatus s.status ∧ ¬(s.BUSY = true ∧ s.DONE = true) ∧ (s.ERR ≠ .noError → s.DONE = true) ∧
    (s.status = 0x01 ↔ s.BUSY = true) ∧ (s.status = 0x02 ↔ s.DONE = true ∧ s.ERR = .noError) ∧
    (s.ERR ≠ .noError → s.status.toNat = 2 + 16 * s.ERR.code.toNat ∧ s.zeroResults)

/-- R29: the values the reset input leaves, in any state, and the reset state of every build; the engine then waits. The
values of the working registers, which R29 leaves unspecified (log 4), are not stated. That `turns` and `reads`, the agents'
own fields, are not reset is the model's choice (log 2, log 6). -/
def Obligations.ResetLeavesTheSpecifiedValues : Prop :=
  (∀ (s : State) (ts : List Turn), s.turns = .reset :: ts →
    ∃ t, step s = .next t ∧ t.L = s.L ∧ (∀ X, t.big X = List.replicate s.L 0#32) ∧ t.CMD = 0x00000000 ∧
      t.BUSY = false ∧ t.DONE = false ∧ t.ERR = .noError ∧ t.status = 0x00000000 ∧
      hostRead t 0x002 = hostRead s 0x002 ∧ t.SEQ = .IDLE ∧ t.turns = ts ∧ t.reads = s.reads ∧ engineStep t = t) ∧
  ∀ L : Nat, L ≤ 256 →
    (State.resetOf L).L = L ∧ (∀ X, (State.resetOf L).big X = List.replicate L 0#32) ∧
    (State.resetOf L).CMD = 0x00000000 ∧ (State.resetOf L).status = 0x00000000 ∧
    (hostRead (State.resetOf L) 0x002).toNat = L ∧ (State.resetOf L).SEQ = .IDLE ∧
    engineStep (State.resetOf L) = State.resetOf L

/-- The invariant of R30 holds in the reset state of every legal build. -/
def Obligations.ResetMeetsTheInvariant : Prop :=
  State.reset.Inv ∧ ∀ L : Nat, Config.legalLimbs L = true → (State.resetOf L).Inv

/-- R30: every step keeps the invariant, from every state that has it. -/
def Obligations.EveryStepKeepsTheInvariant : Prop :=
  ∀ s t : State, s.Inv → step s = .next t → t.Inv

/-- R11: an operand register changes only by a host write of one of its limbs while idle, which replaces that limb, and by
reset, which zeroes it; the engine changes none. -/
def Obligations.OnlyTheHostWritesOperands : Prop :=
  ∀ (s t : State) (X : BigReg), X.isOperand = true → step s = .next t →
    t.big X = s.big X ∨
    (∃ ts, s.turns = .reset :: ts ∧ t.big X = List.replicate s.L 0#32) ∨
    ∃ (u : Turn) (ts : List Turn) (addr : Addr) (v : Word) (k : Nat),
      s.turns = u :: ts ∧ u.writesWord addr v ∧ s.BUSY = false ∧ k < s.L ∧
      addr.toNat = 0x100 * (X.number + 1) + k ∧ t.big X = (s.big X).set k v

/-- R12: the result registers change only at acceptance (all 0), at completion (all 0 if it is an error) and at reset (all
0); while busy all three read as 0. -/
def Obligations.ResultsChangeAtThreeMomentsOnly : Prop :=
  (∀ s : State, s.Inv → s.BUSY = true → s.zeroResults) ∧
  ∀ s t : State, s.Inv → step s = .next t →
    (t.R0 = s.R0 ∧ t.R1 = s.R1 ∧ t.R2 = s.R2) ∨
    (s.BUSY = false ∧ t.BUSY = true ∧ t.zeroResults) ∨
    (s.BUSY = true ∧ t.BUSY = false ∧ t.DONE = true ∧ (t.ERR ≠ .noError → t.zeroResults)) ∨
    ((∃ ts, s.turns = .reset :: ts) ∧ t.zeroResults)

/-- R17, R18: BUSY rises only by a write to CMD while idle; it falls only at completion, which sets DONE, and at reset; DONE
rises only at completion; it falls only at acceptance and at reset. -/
def Obligations.BusyAndDoneChangeOnlyAsStated : Prop :=
  ∀ s t : State, step s = .next t →
    (s.BUSY = false → t.BUSY = true → ∃ u ts, s.turns = u :: ts ∧ u.writesCmd) ∧
    (s.BUSY = true → t.BUSY = false →
      (∃ ts, s.turns = .reset :: ts) ∨
      ((s.turns = [] ∨ ∃ ts, s.turns = .engine :: ts ∨ s.turns = .command :: ts) ∧ t.DONE = true)) ∧
    (s.DONE = false → t.DONE = true → s.BUSY = true ∧ t.BUSY = false) ∧
    (s.DONE = true → t.DONE = false →
      (∃ ts, s.turns = .reset :: ts) ∨ ((∃ u ts, s.turns = u :: ts ∧ u.writesCmd) ∧ s.BUSY = false ∧ t.BUSY = true))

/-- R85, R24: how SEQ moves: IDLE to START by a write to CMD; START to a loop or to IDLE, a loop to itself or to IDLE, and
only by the engine; any state to IDLE by reset; no other turn moves it. -/
def Obligations.SequencerMovesAsStated : Prop :=
  ∀ s t : State, s.Inv → step s = .next t →
    (t.SEQ = .START → s.SEQ = .START ∨ (s.SEQ = .IDLE ∧ ∃ u ts, s.turns = u :: ts ∧ u.writesCmd)) ∧
    (t.SEQ = .MODEXP_ITER → s.SEQ = .MODEXP_ITER ∨ s.SEQ = .START) ∧
    (t.SEQ = .EGCD_ITER → s.SEQ = .EGCD_ITER ∨ s.SEQ = .START) ∧
    (s.SEQ ≠ .IDLE → t.SEQ ≠ s.SEQ →
      (s.turns = [] ∨ ∃ ts, s.turns = .engine :: ts ∨ s.turns = .command :: ts) ∨
      ((∃ ts, s.turns = .reset :: ts) ∧ t.SEQ = .IDLE)) ∧
    (s.SEQ = .START → s.turns = [] ∨ (∃ ts, s.turns = .engine :: ts) → t.SEQ ≠ .START)

/-- R51: while DONE is 1, every step but a write to CMD and a reset leaves STATUS, the result registers and CMD as they are. -/
def Obligations.ResultsStayUntilTheNextCommand : Prop :=
  ∀ s t : State, s.Inv → s.DONE = true → step s = .next t →
    (∀ u ts, s.turns = u :: ts → ¬u.writesCmd ∧ u ≠ .reset) →
    t.DONE = true ∧ t.status = s.status ∧ t.R0 = s.R0 ∧ t.R1 = s.R1 ∧ t.R2 = s.R2 ∧ t.CMD = s.CMD

/-- The machine never stops by itself (R41, R142): a step answers a next state exactly when the turn is not a bus access of
another shape than one word of the register space, and then it is refused by name (R49). No step faults. -/
def Obligations.OnlyMalformedBusAccessesStop : Prop :=
  ∀ s : State,
    ((∃ t, step s = .next t) ↔ ∀ u ts, s.turns = u :: ts → u.reachesBlock = true) ∧
    (∀ f : Fault, step s ≠ .fault f) ∧
    ∀ r : Refusal, step s = .refused r → r = .notOneWord ∨ r = .outsideRegisterSpace

/-- R44, R49: on a byte-addressed bus the word at byte address `4 * word index` is the word at that index, and an access
that is not a naturally aligned 32-bit word is refused. -/
def Obligations.BusAccessIsAWordAccess : Prop :=
  (∀ (s : State) (addr : Addr) (ts : List Turn),
    step (s.withTurns (.busRead (4 * addr.toNat) 4 :: ts)) = step (s.withTurns (.read addr :: ts))) ∧
  (∀ (s : State) (addr : Addr) (v : Word) (ts : List Turn),
    step (s.withTurns (.busWrite (4 * addr.toNat) 4 v :: ts)) = step (s.withTurns (.write addr v :: ts))) ∧
  ∀ (s : State) (a n : Nat) (v : Word) (ts : List Turn), n ≠ 4 ∨ a % 4 ≠ 0 →
    step (s.withTurns (.busRead a n :: ts)) = .refused .notOneWord ∧
    step (s.withTurns (.busWrite a n v :: ts)) = .refused .notOneWord

/-- R64: an illegal word is accepted like any other, and the engine's next turn, of either grain, ends the command with
IllegalCmd: results 0, CMD keeps the word, no working register and no operand changes. -/
def Obligations.IllegalWordEndsInIllegalCmd : Prop :=
  ∀ (s : State) (w : Word) (u : Turn) (ts : List Turn),
    s.BUSY = false → w ≠ 1 → w ≠ 2 → w ≠ 3 → w ≠ 4 → u = .engine ∨ u = .command →
    s.turns = .write 0x000 w :: u :: ts →
    ∃ m t, step s = .next m ∧ m.status = 0x00000001 ∧ m.zeroResults ∧ step m = .next t ∧
      t = { s with turns := ts, CMD := w, R0 := List.replicate s.L 0#32, R1 := List.replicate s.L 0#32,
                   R2 := List.replicate s.L 0#32, BUSY := false, DONE := true, ERR := .illegalCmd, SEQ := .IDLE } ∧
      t.zeroResults ∧ t.status = 0x00000032 ∧ hostRead t 0x000 = w

/-- R91: the START step of EGCD. -/
def Obligations.EgcdStartStep : Prop :=
  ∀ s : State, s.starting .egcd →
    (s.x .A = 0 → s.x .B = 0 →
      (engineStep s).ERR = .invalidInput ∧ (engineStep s).status = 0x00000012 ∧ (engineStep s).zeroResults ∧
      (engineStep s).SEQ = .IDLE) ∧
    (¬(s.x .A = 0 ∧ s.x .B = 0) →
      engineStep s = { s with RA := s.x .A, RB := s.x .B, SA := 1, SB := 0, TA := 0, TB := 1, FIN := .FIN_EGCD,
                              SEQ := .EGCD_ITER })

/-- R93: one iteration step of the Euclidean loop: one quotient, old values on the right; the new RB is `fmod` of the old
pair; the Bezout identities of any pair of integers are kept; with RB = 0 the finish that FIN names. -/
def Obligations.EuclidIterationStep : Prop :=
  ∀ s : State, s.BUSY = true → s.SEQ = .EGCD_ITER →
    (s.RB ≠ 0 →
      engineStep s = { s with RA := s.RB, RB := fmod s.RA s.RB,
                              SA := s.SB, SB := s.SA - fdiv s.RA s.RB * s.SB,
                              TA := s.TB, TB := s.TA - fdiv s.RA s.RB * s.TB } ∧
      ∀ a b : Int, a * s.SA + b * s.TA = s.RA → a * s.SB + b * s.TB = s.RB →
        a * (engineStep s).SA + b * (engineStep s).TA = (engineStep s).RA ∧
        a * (engineStep s).SB + b * (engineStep s).TB = (engineStep s).RB) ∧
    (s.RB = 0 → s.FIN = .FIN_EGCD → engineStep s = egcdFinish s) ∧
    (s.RB = 0 → s.FIN = .FIN_INV → engineStep s = invFinish s)

/-- R94, R117: the two finishes of the Euclidean loop. -/
def Obligations.EuclidFinishes : Prop :=
  ∀ s : State, s.shape →
    (Config.fits s.L s.RA → Config.fits s.L s.SA → Config.fits s.L s.TA →
      (egcdFinish s).status = 0x00000002 ∧ (egcdFinish s).x .R0 = s.RA ∧ (egcdFinish s).x .R1 = s.SA ∧
      (egcdFinish s).x .R2 = s.TA) ∧
    (¬(Config.fits s.L s.RA ∧ Config.fits s.L s.SA ∧ Config.fits s.L s.TA) →
      (egcdFinish s).status = 0x00000042 ∧ (egcdFinish s).zeroResults) ∧
    ((s.RA ≠ 1 ∧ s.RA ≠ -1) → (invFinish s).status = 0x00000022 ∧ (invFinish s).zeroResults) ∧
    ((s.RA = 1 ∨ s.RA = -1) → s.SA < 0 → Config.fits s.L (s.SA + s.MD) →
      (invFinish s).status = 0x00000002 ∧ (invFinish s).x .R0 = s.SA + s.MD ∧ (invFinish s).x .R1 = 0 ∧
      (invFinish s).x .R2 = 0) ∧
    ((s.RA = 1 ∨ s.RA = -1) → 0 ≤ s.SA → Config.fits s.L s.SA →
      (invFinish s).status = 0x00000002 ∧ (invFinish s).x .R0 = s.SA ∧ (invFinish s).x .R1 = 0 ∧
      (invFinish s).x .R2 = 0) ∧
    ((s.RA = 1 ∨ s.RA = -1) → ¬Config.fits s.L (if s.SA < 0 then s.SA + s.MD else s.SA) →
      (invFinish s).status = 0x00000042 ∧ (invFinish s).zeroResults)

/-- R101: the START step of MODEXP. -/
def Obligations.ModexpStartStep : Prop :=
  ∀ s : State, s.starting .modexp →
    (s.x .B < 0 ∨ s.x .C ≤ 0 →
      (engineStep s).ERR = .invalidInput ∧ (engineStep s).status = 0x00000012 ∧ (engineStep s).zeroResults ∧
      (engineStep s).SEQ = .IDLE) ∧
    (0 ≤ s.x .B → 0 < s.x .C →
      engineStep s = { s with MD := s.x .C, EX := s.x .B, BS := fmod (s.x .A) (s.x .C), ACC := 1,
                              I := bitlen (s.x .B), SEQ := .MODEXP_ITER } ∧
      0 ≤ (engineStep s).BS ∧ (engineStep s).BS < (engineStep s).MD ∧
      (s.x .B = 0 → (engineStep s).I = 0) ∧
      (0 < s.x .B → 2 ^ ((engineStep s).I - 1) ≤ s.x .B ∧ s.x .B < 2 ^ (engineStep s).I))

/-- R103, R80: one iteration step of square-and-multiply; at count 0 it is the normal completion with ACC, 0 and
0. That this completion leaves the working registers as they were is the model's choice (log 5): R26 leaves it open. -/
def Obligations.ModexpIterationStep : Prop :=
  ∀ s : State, s.BUSY = true → s.SEQ = .MODEXP_ITER →
    (s.I = 0 →
      engineStep s = { s with R0 := encLimbs s.L s.ACC, R1 := List.replicate s.L 0#32, R2 := List.replicate s.L 0#32,
                              BUSY := false, DONE := true, ERR := .noError, SEQ := .IDLE } ∧
      (s.shape → Config.fits s.L s.ACC → (engineStep s).x .R0 = s.ACC)) ∧
    (s.I ≠ 0 →
      (fmod (fdiv s.EX (2 ^ (s.I - 1))) 2 = 1 →
        engineStep s = { s with I := s.I - 1, ACC := fmod (fmod (s.ACC * s.ACC) s.MD * s.BS) s.MD }) ∧
      (fmod (fdiv s.EX (2 ^ (s.I - 1))) 2 = 0 →
        engineStep s = { s with I := s.I - 1, ACC := fmod (s.ACC * s.ACC) s.MD }) ∧
      (0 < s.MD → 0 ≤ (engineStep s).ACC ∧ (engineStep s).ACC < s.MD))

/-- R116, R121: the START steps of MODINV and PRIVKEY. -/
def Obligations.InverseStartSteps : Prop :=
  (∀ s : State, s.starting .modinv →
    (s.x .B ≤ 0 → (engineStep s).status = 0x00000012 ∧ (engineStep s).zeroResults ∧ (engineStep s).SEQ = .IDLE) ∧
    (0 < s.x .B →
      engineStep s = { s with MD := s.x .B, RA := s.x .A, RB := s.x .B, SA := 1, SB := 0, TA := 0, TB := 1,
                              FIN := .FIN_INV, SEQ := .EGCD_ITER })) ∧
  ∀ s : State, s.starting .privkey →
    ((s.x .B - 1) * (s.x .C - 1) ≤ 0 →
      (engineStep s).status = 0x00000012 ∧ (engineStep s).zeroResults ∧ (engineStep s).SEQ = .IDLE) ∧
    (Config.maxInt s.L < (s.x .B - 1) * (s.x .C - 1) →
      (engineStep s).status = 0x00000042 ∧ (engineStep s).zeroResults ∧ (engineStep s).SEQ = .IDLE) ∧
    (0 < (s.x .B - 1) * (s.x .C - 1) → (s.x .B - 1) * (s.x .C - 1) ≤ Config.maxInt s.L →
      engineStep s = { s with MD := (s.x .B - 1) * (s.x .C - 1), RA := s.x .A, RB := (s.x .B - 1) * (s.x .C - 1),
                              SA := 1, SB := 0, TA := 0, TB := 1, FIN := .FIN_INV, SEQ := .EGCD_ITER })

/-- R90: the contract of the extended GCD unit, for every pair of operands: normal completion with `|g| = gcd(a, b)` and
`a*x + b*y = g` unless both are zero, which is InvalidInput. That no result is out of range is part of the claim. -/
def Obligations.EgcdMeetsItsContract : Prop :=
  ∀ s : State, s.shape →
    (¬(s.x .A = 0 ∧ s.x .B = 0) →
      ∃ t, exec .egcd s = .next t ∧ t.status = 0x00000002 ∧ t.SEQ = .IDLE ∧
        (t.x .R0).natAbs = Int.gcd (s.x .A) (s.x .B) ∧
        s.x .A * t.x .R1 + s.x .B * t.x .R2 = t.x .R0) ∧
    (s.x .A = 0 → s.x .B = 0 →
      ∃ t, exec .egcd s = .next t ∧ t.status = 0x00000012 ∧ t.SEQ = .IDLE ∧ t.zeroResults)

/-- R95: the sign of g; the loop of EGCD ends after at most |b| + 1 passes (START, the passes, and the finishing step). The
sign of g and the triple (A, 1, 0) rest on the spec's decision D14, which the model follows (log 8): R90 alone leaves them
open. -/
def Obligations.EgcdSignAndTermination : Prop :=
  (∀ s t : State, s.shape → ¬(s.x .A = 0 ∧ s.x .B = 0) → exec .egcd s = .next t →
    (0 < s.x .B → t.x .R0 = Int.gcd (s.x .A) (s.x .B)) ∧
    (s.x .B < 0 → t.x .R0 = -(Int.gcd (s.x .A) (s.x .B) : Int)) ∧
    (s.x .B = 0 → t.x .R0 = s.x .A ∧ t.x .R1 = 1 ∧ t.x .R2 = 0)) ∧
  ∀ s : State, s.starting .egcd → ¬(s.x .A = 0 ∧ s.x .B = 0) →
    ∃ n, n ≤ (s.x .B).natAbs + 1 ∧ (s.x .B = 0 → n = 0) ∧
      (∀ m, m < n + 2 → (engineSteps m s).BUSY = true) ∧
      (engineSteps (n + 2) s).BUSY = false ∧ (engineSteps (n + 2) s).DONE = true ∧ (engineSteps (n + 2) s).SEQ = .IDLE

/-- R168: EGCD, MODINV and PRIVKEY, past their START checks, take the START step, n passes of the loop, and the finishing
step, with n at most one more than the magnitude of the second integer loaded, and 0 when that is 0. -/
def Obligations.EuclidCommandsStepCount : Prop :=
  ∀ (i : Instr) (s : State), s.starting i →
    (i = .egcd ∧ ¬(s.x .A = 0 ∧ s.x .B = 0)) ∨ (i = .modinv ∧ 0 < s.x .B) ∨
      (i = .privkey ∧ 0 < (s.x .B - 1) * (s.x .C - 1) ∧ (s.x .B - 1) * (s.x .C - 1) ≤ Config.maxInt s.L) →
    ∃ n, n ≤ (s.secondOperand i).natAbs + 1 ∧ (s.secondOperand i = 0 ↔ n = 0) ∧
      (∀ m, m < n + 2 → (engineSteps m s).BUSY = true) ∧
      (∀ m, 0 < m → m < n + 2 → (engineSteps m s).SEQ = .EGCD_ITER) ∧
      (engineSteps (n + 2) s).BUSY = false ∧ (engineSteps (n + 2) s).DONE = true ∧ (engineSteps (n + 2) s).SEQ = .IDLE

/-- R106: the value of MODEXP, for every base, every exponent at least 0 and every modulus above 0. -/
def Obligations.ModexpMeetsItsContract : Prop :=
  ∀ s : State, s.shape → 0 ≤ s.x .B → 0 < s.x .C →
    ∃ t, exec .modexp s = .next t ∧ t.status = 0x00000002 ∧ t.SEQ = .IDLE ∧ t.x .R1 = 0 ∧ t.x .R2 = 0 ∧
      (s.x .B = 0 → t.x .R0 = 1) ∧
      (0 < s.x .B →
        t.x .R0 = fmod (s.x .A ^ (s.x .B).toNat) (s.x .C) ∧
        t.x .R0 = fmod (fmod (s.x .A) (s.x .C) ^ (s.x .B).toNat) (s.x .C) ∧
        0 ≤ t.x .R0 ∧ t.x .R0 < s.x .C)

/-- R101, R132: MODEXP with a negative exponent or a modulus that is not positive ends with InvalidInput. -/
def Obligations.ModexpRejectsBadArguments : Prop :=
  ∀ s : State, s.x .B < 0 ∨ s.x .C ≤ 0 →
    ∃ t, exec .modexp s = .next t ∧ t.status = 0x00000012 ∧ t.ERR = .invalidInput ∧ t.SEQ = .IDLE ∧ t.zeroResults

/-- R105, R168: MODEXP takes the START step, bitlen(exponent) passes, at most W - 1, and the completing step. -/
def Obligations.ModexpStepCount : Prop :=
  ∀ s : State, s.shape → s.starting .modexp → 0 ≤ s.x .B → 0 < s.x .C →
    bitlen (s.x .B) ≤ 32 * s.L - 1 ∧
    (∀ m, m < bitlen (s.x .B) + 2 → (engineSteps m s).BUSY = true) ∧
    (engineSteps (bitlen (s.x .B) + 2) s).BUSY = false ∧ (engineSteps (bitlen (s.x .B) + 2) s).DONE = true

/-- R110: the values ACC takes are the return values of the nested calls of the recursive form, and so is the result. -/
def Obligations.ModexpAgreesWithTheRecursion : Prop :=
  (∀ s : State, s.BUSY = true → s.SEQ = .MODEXP_ITER → s.I ≠ 0 → s.I ≤ bitlen s.EX → 0 < s.MD → 0 ≤ s.EX →
    s.ACC = modpow s.BS (fdiv s.EX (2 ^ s.I)) s.MD →
    (engineStep s).ACC = modpow s.BS (fdiv s.EX (2 ^ (s.I - 1))) s.MD) ∧
  (∀ b m : Int, modpow b 0 m = 1) ∧
  (∀ b e m : Int, 0 < e → modpow b e m =
    if fmod e 2 = 1 then fmod (fmod (modpow b (fdiv e 2) m * modpow b (fdiv e 2) m) m * b) m
    else fmod (modpow b (fdiv e 2) m * modpow b (fdiv e 2) m) m) ∧
  ∀ s : State, s.shape → 0 ≤ s.x .B → 0 < s.x .C →
    ∃ t, exec .modexp s = .next t ∧ t.ERR = .noError ∧ t.x .R0 = modpow (s.x .A) (s.x .B) (s.x .C)

/-- R119: the inverse, for every modulus above 0: (a) g > 0 and ContractViolation exactly when the gcd is not 1; (b) the
range and the congruence; (c) one addition is enough; (d) the result depends on A only through its residue.
As R119 says, (a) rests on the loop of R93, which is the spec's decision D14. -/
def Obligations.ModinvMeetsItsContract : Prop :=
  (∀ s : State, s.shape → 0 < s.x .B →
    0 < (egcdCore (s.x .A) (s.x .B)).r0 ∧
    ((egcdCore (s.x .A) (s.x .B)).r0 = 1 →
      -(s.x .B) < (egcdCore (s.x .A) (s.x .B)).s0 ∧ (egcdCore (s.x .A) (s.x .B)).s0 < s.x .B) ∧
    (Int.gcd (s.x .A) (s.x .B) = 1 →
      ∃ t, exec .modinv s = .next t ∧ t.status = 0x00000002 ∧ t.SEQ = .IDLE ∧
        0 ≤ t.x .R0 ∧ t.x .R0 < s.x .B ∧ fmod (s.x .A * t.x .R0) (s.x .B) = fmod 1 (s.x .B) ∧
        t.x .R1 = 0 ∧ t.x .R2 = 0) ∧
    (Int.gcd (s.x .A) (s.x .B) ≠ 1 →
      ∃ t, exec .modinv s = .next t ∧ t.status = 0x00000022 ∧ t.SEQ = .IDLE ∧ t.zeroResults)) ∧
  ∀ s t s' t' : State, s.shape → t.shape → 0 < s.x .B → t.x .B = s.x .B →
    fmod (s.x .A) (s.x .B) = fmod (t.x .A) (s.x .B) → exec .modinv s = .next s' → exec .modinv t = .next t' →
    s'.ERR = t'.ERR ∧ s'.x .R0 = t'.x .R0

/-- R116: MODINV with a modulus that is not positive ends with InvalidInput, whatever A holds. -/
def Obligations.ModinvRejectsBadModulus : Prop :=
  ∀ s : State, s.x .B ≤ 0 →
    ∃ t, exec .modinv s = .next t ∧ t.status = 0x00000012 ∧ t.ERR = .invalidInput ∧ t.SEQ = .IDLE ∧ t.zeroResults

/-- R121, R122: PRIVKEY for every e, p, q, with `phi = (p-1)*(q-1)` exact. -/
def Obligations.PrivkeyMeetsItsContract : Prop :=
  ∀ (s : State) (phi : Int), s.shape → phi = (s.x .B - 1) * (s.x .C - 1) →
    (phi ≤ 0 → ∃ t, exec .privkey s = .next t ∧ t.status = 0x00000012 ∧ t.SEQ = .IDLE ∧ t.zeroResults) ∧
    (Config.maxInt s.L < phi → ∃ t, exec .privkey s = .next t ∧ t.status = 0x00000042 ∧ t.SEQ = .IDLE ∧ t.zeroResults) ∧
    (0 < phi → phi ≤ Config.maxInt s.L → Int.gcd (s.x .A) phi = 1 →
      ∃ t, exec .privkey s = .next t ∧ t.status = 0x00000002 ∧ t.SEQ = .IDLE ∧
        0 ≤ t.x .R0 ∧ t.x .R0 < phi ∧ fmod (s.x .A * t.x .R0) phi = fmod 1 phi ∧ t.x .R1 = 0 ∧ t.x .R2 = 0) ∧
    (0 < phi → phi ≤ Config.maxInt s.L → Int.gcd (s.x .A) phi ≠ 1 →
      ∃ t, exec .privkey s = .next t ∧ t.status = 0x00000022 ∧ t.SEQ = .IDLE ∧ t.zeroResults)

/-- R122, 95_test_vectors.md section 5: PRIVKEY answers what MODINV answers on `(e, phi)`, when the totient is positive and
fits. -/
def Obligations.PrivkeyIsModinvOfTheTotient : Prop :=
  ∀ (s u : State) (s' u' : State), s.shape → u.shape → u.L = s.L → u.x .A = s.x .A →
    u.x .B = (s.x .B - 1) * (s.x .C - 1) → 0 < u.x .B →
    exec .privkey s = .next s' → exec .modinv u = .next u' →
    s'.status = u'.status ∧ s'.R0 = u'.R0 ∧ s'.R1 = u'.R1 ∧ s'.R2 = u'.R2

/-- R131: the error codes each command ends with, exactly; EGCD never ends with Range, nor MODINV, though both guard it. -/
def Obligations.ErrorsAreExactlyTheTabulatedOnes : Prop :=
  ∀ s t : State, s.shape →
    (exec .egcd s = .next t →
      t.ERR = if s.x .A = 0 ∧ s.x .B = 0 then .invalidInput else .noError) ∧
    (exec .modexp s = .next t →
      t.ERR = if s.x .B < 0 ∨ s.x .C ≤ 0 then .invalidInput else .noError) ∧
    (exec .modinv s = .next t →
      t.ERR = if s.x .B ≤ 0 then .invalidInput
        else if Int.gcd (s.x .A) (s.x .B) ≠ 1 then .contractViolation else .noError) ∧
    (exec .privkey s = .next t →
      t.ERR = if (s.x .B - 1) * (s.x .C - 1) ≤ 0 then .invalidInput
        else if Config.maxInt s.L < (s.x .B - 1) * (s.x .C - 1) then .range
        else if Int.gcd (s.x .A) ((s.x .B - 1) * (s.x .C - 1)) ≠ 1 then .contractViolation else .noError)

/-- The frame of the commands EGCD, MODINV and PRIVKEY, from any state: A, B, C, CMD, the build and the agents' fields are
unchanged, every word index but STATUS and the windows of R0, R1, R2 reads as before, and so are the working registers the
command does not load (MD is loaded by MODINV and PRIVKEY). That a completed command leaves those working registers as they
were is the model's choice (log 5): R26 allows clearing them. -/
def Obligations.EuclidCommandsFrame : Prop :=
  ∀ (i : Instr) (s t : State), i = .egcd ∨ i = .modinv ∨ i = .privkey → exec i s = .next t →
    t.A = s.A ∧ t.B = s.B ∧ t.C = s.C ∧ t.CMD = s.CMD ∧ t.L = s.L ∧ t.turns = s.turns ∧ t.reads = s.reads ∧
    (∀ addr, ¬resultAddr addr → hostRead t addr = hostRead s addr) ∧
    t.ACC = s.ACC ∧ t.BS = s.BS ∧ t.EX = s.EX ∧ t.I = s.I ∧ (i = .egcd → t.MD = s.MD)

/-- The frame of MODEXP, from any state. That RA, RB, SA, SB, TA, TB and FIN are unchanged after the completion is the
model's choice (log 5): R26 allows clearing them. -/
def Obligations.ModexpFrame : Prop :=
  ∀ s t : State, exec .modexp s = .next t →
    t.A = s.A ∧ t.B = s.B ∧ t.C = s.C ∧ t.CMD = s.CMD ∧ t.L = s.L ∧ t.turns = s.turns ∧ t.reads = s.reads ∧
    (∀ addr, ¬resultAddr addr → hostRead t addr = hostRead s addr) ∧
    t.RA = s.RA ∧ t.RB = s.RB ∧ t.SA = s.SA ∧ t.SB = s.SB ∧ t.TA = s.TA ∧ t.TB = s.TB ∧ t.FIN = s.FIN

/-- R80, R136: every command answers a next state that is idle and done; with an error the results are 0 and STATUS is
`2 + 16*code`, without one STATUS is 2; the registers R137 names are as before. -/
def Obligations.EveryCommandEndsByOneCompletion : Prop :=
  ∀ (i : Instr) (s : State), ∃ t, exec i s = .next t ∧
    t.BUSY = false ∧ t.DONE = true ∧ t.SEQ = .IDLE ∧
    t.A = s.A ∧ t.B = s.B ∧ t.C = s.C ∧ t.CMD = s.CMD ∧
    (t.ERR = .noError → t.status = 0x00000002) ∧
    (t.ERR ≠ .noError → t.status.toNat = 2 + 16 * t.ERR.code.toNat ∧ t.zeroResults ∧
      t.R0.length = s.L ∧ t.R1.length = s.L ∧ t.R2.length = s.L)

/-- R82: the datapath of the rules R91 to R121, run to completion, ends as the function `Exec` of R82 says, in every
field but the working registers. -/
def Obligations.CommandsMatchTheResultFunctions : Prop :=
  ∀ (i : Instr) (s : State), s.shape →
    ∃ t, exec i s = .next t ∧
      t.forgetWork = (finishWith s (execResult s.L (encode i) (s.x .A) (s.x .B) (s.x .C))).forgetWork

/-- R84: one merged step of a command is the same as its single engine steps taken one after another, down to the working
registers; until the last of them the engine is busy. -/
def Obligations.EngineStepsEqualTheMergedCommand : Prop :=
  ∀ (s : State) (ts : List Turn), s.BUSY = true → s.SEQ ≠ .IDLE →
    ∃ n t, 0 < n ∧ step (s.withTurns (.command :: ts)) = .next t ∧ t.BUSY = false ∧ t.DONE = true ∧
      Host.Core.run Sys2Proof.core n (s.withTurns (List.replicate n .engine ++ ts)) = .next t ∧
      ∀ m, m < n → (engineSteps m s).BUSY = true

/-- R82, R22, R26: the outcome of a command depends on nothing but the operands it reads and the width: not on CMD, not on
earlier results or status, not on working registers left over; EGCD and MODINV do not depend on C. -/
def Obligations.OutcomeDependsOnlyOnTheOperands : Prop :=
  ∀ (i : Instr) (s u s' u' : State), s.L = u.L → s.A = u.A → s.B = u.B →
    (i = .modexp ∨ i = .privkey → s.C = u.C) → exec i s = .next s' → exec i u = .next u' →
    s'.status = u'.status ∧ s'.R0 = u'.R0 ∧ s'.R1 = u'.R1 ∧ s'.R2 = u'.R2

/-- R52: the operands are read in the START step only: an iteration step does the same whatever A, B and C hold, and leaves
them as they are. -/
def Obligations.OperandsAreReadInTheStartStepOnly : Prop :=
  ∀ (s : State) (X : BigReg) (ws : List Word), X.isOperand = true →
    s.SEQ = .MODEXP_ITER ∨ s.SEQ = .EGCD_ITER → engineStep (s.setBig X ws) = (engineStep s).setBig X ws

/-- R21, R152: no step changes the build's L or what INFO reads as. -/
def Obligations.InfoIsConstant : Prop :=
  ∀ s t : State, step s = .next t → t.L = s.L ∧ hostRead t 0x002 = hostRead s 0x002

/-- R48, R67: the writes of `SET X, z`, done while idle, load the register with z and change nothing else. -/
def Obligations.ScriptSetLoadsTheRegister : Prop :=
  ∀ (s : State) (X : BigReg) (z : Int) (ts : List Turn), s.shape → s.BUSY = false → (Line.set X z).wf s.L = true →
    s.turns = expand s.L (.set X z) ++ ts →
    ∃ t, Host.Core.run Sys2Proof.core s.L s = .next t ∧ t = (s.setBig X (t.big X)).withTurns ts ∧
      (t.big X).length = s.L ∧ t.x X = z

/-- R47, R48, R67: the reads of `GET X` return the limbs of the register, limb 0 first, whose signed value is the
register's, and change nothing else. -/
def Obligations.ScriptGetReadsTheRegister : Prop :=
  ∀ (s : State) (X : BigReg) (ts : List Turn), s.shape → s.turns = expand s.L (.get X) ++ ts →
    ∃ limbs : List Word, limbs.length = s.L ∧ sextLimbs limbs = s.x X ∧
      Host.Core.run Sys2Proof.core s.L s = .next { s with turns := ts, reads := limbs.reverse ++ s.reads }

/-- R82, R83, R154: a CALL (the command word written while idle, then WAIT) always ends; the host has then read STATUS as
BUSY some number of times and then the final STATUS, and the machine is as `Exec` of R82 says. That WAIT and the engine
take turns is the model's choice (log 11). -/
def Obligations.CallRunsTheCommandToItsResult : Prop :=
  ∀ (s : State) (i : Instr) (ts : List Turn), s.shape → s.BUSY = false →
    s.turns = expand s.L (.call (.instr i)) ++ ts →
    ∃ n k t, Host.Core.run Sys2Proof.core n s = .next t ∧ t.turns = ts ∧
      t.reads = t.status :: (List.replicate k 0x00000001 ++ s.reads) ∧
      t.forgetHost.forgetWork =
        (finishWith (accept s (encode i))
          (execResult s.L (encode i) (s.x .A) (s.x .B) (s.x .C))).forgetHost.forgetWork

/-- R108, R164: with p and q different primes, n = p*q a value the width holds, and e > 0 coprime to the totient, PRIVKEY
answers a d with which DECRYPT undoes ENCRYPT on every message in [0, n); any other plaintext wraps modulo n. -/
def Obligations.RsaRoundTrip : Prop :=
  ∀ (s : State) (p q : Nat), s.shape → p.Prime → q.Prime → p ≠ q → s.x .B = p → s.x .C = q → 0 < s.x .A →
    Int.gcd (s.x .A) ((p - 1) * (q - 1)) = 1 → Config.fits s.L (p * q) →
    ∃ k, exec .privkey s = .next k ∧ k.ERR = .noError ∧
      ∀ u v : State, u.shape → v.shape →
        u.x .B = s.x .A → u.x .C = p * q → v.x .B = k.x .R0 → v.x .C = p * q →
        ∃ c, exec .modexp u = .next c ∧ c.ERR = .noError ∧
          (v.x .A = c.x .R0 → ∃ m, exec .modexp v = .next m ∧ m.ERR = .noError ∧
            m.x .R0 = fmod (u.x .A) (p * q) ∧
            (0 ≤ u.x .A → u.x .A < p * q → m.x .R0 = u.x .A))

/-- R6: floor division and remainder. -/
def Obligations.FloorDivisionLaws : Prop :=
  (∀ n d : Int, d ≠ 0 →
    fmod n d = n - d * fdiv n d ∧ |fmod n d| < |d| ∧ (0 < d → 0 ≤ fmod n d) ∧ (d < 0 → fmod n d ≤ 0) ∧
    fdiv n d = ⌊(n : ℚ) / (d : ℚ)⌋) ∧
  fmod (-7) 3 = 2 ∧ fdiv (-7) 3 = -3 ∧ fmod 7 (-3) = -2 ∧ fdiv 7 (-3) = -3 ∧ fmod (-7) (-3) = -1 ∧ fdiv (-7) (-3) = 2
end

