-- ==== Sys2Proof/Laws/Arith.lean ====
section
/-! SUPPORT. Laws of the arithmetic notation: floor division, bit length, and the limbs of a signed integer. -/

namespace Sys2Proof.Machine

theorem fdiv_eq (n d : Int) : fdiv n d = Int.fdiv n d := rfl

theorem fmod_eq (n d : Int) : fmod n d = Int.fmod n d := by
  rw [fmod, fdiv_eq, Int.fmod_def]

/-- For a positive divisor, floor remainder is the Euclidean remainder of Lean's `%`. -/
theorem fmod_eq_emod {n d : Int} (hd : 0 ≤ d) : fmod n d = n % d := by
  rw [fmod_eq, Int.fmod_eq_emod_of_nonneg n hd]

/-- For a positive divisor, floor division is Lean's `/`. -/
theorem fdiv_eq_ediv {n d : Int} (hd : 0 ≤ d) : fdiv n d = n / d := by
  rw [fdiv_eq, Int.fdiv_eq_ediv_of_nonneg n hd]

theorem fdiv_mul_add_fmod (n d : Int) : d * fdiv n d + fmod n d = n := by
  simp [fmod]

theorem fmod_nonneg {n d : Int} (hd : 0 < d) : 0 ≤ fmod n d := by
  rw [fmod_eq_emod hd.le]; exact Int.emod_nonneg n hd.ne'

theorem fmod_lt {n d : Int} (hd : 0 < d) : fmod n d < d := by
  rw [fmod_eq_emod hd.le]; exact Int.emod_lt_of_pos n hd

theorem fmod_neg_divisor (n d : Int) : fmod n (-d) = -fmod (-n) d := by
  rw [fmod_eq, fmod_eq, ← Int.neg_fmod_neg]; simp

theorem fmod_nonpos {n d : Int} (hd : d < 0) : fmod n d ≤ 0 := by
  have h := fmod_nonneg (n := -n) (Int.neg_pos_of_neg hd)
  rw [fmod_neg_divisor] at h; simp at h; exact h

theorem lt_fmod {n d : Int} (hd : d < 0) : d < fmod n d := by
  have h := fmod_lt (n := -n) (Int.neg_pos_of_neg hd)
  rw [fmod_neg_divisor] at h; simp at h; exact h

theorem natAbs_fmod_lt {n d : Int} (hd : d ≠ 0) : (fmod n d).natAbs < d.natAbs := by
  rcases lt_or_gt_of_ne hd with h | h
  · have h1 := fmod_nonpos (n := n) h
    have h2 := lt_fmod (n := n) h
    omega
  · have h1 := fmod_nonneg (n := n) h
    have h2 := fmod_lt (n := n) h
    omega

/-- The new remainder of a pass of the Euclidean loop is `fmod` of the old pair (41_egcd.md R93). -/
theorem sub_fdiv_mul (n d : Int) : n - fdiv n d * d = fmod n d := by
  rw [fmod, mul_comm]

/-- `bitlen(e) = k` says `2^(k-1) ≤ e < 2^k` (00_scope.md section 5). -/
theorem bitlen_bounds {e : Int} (he : 0 < e) :
    ((2 ^ (bitlen e - 1) : Nat) : Int) ≤ e ∧ e < ((2 ^ bitlen e : Nat) : Int) := by
  have hn : e.toNat ≠ 0 := by omega
  have h1 := Nat.log2_self_le hn
  have h2 := Nat.lt_log2_self (n := e.toNat)
  simp only [bitlen, he.ne', if_false, Nat.add_sub_cancel]
  omega

@[simp] theorem bitlen_zero : bitlen 0 = 0 := rfl

/-! Limbs. -/

@[simp] theorem zextLimbs_nil : zextLimbs [] = 0 := rfl

@[simp] theorem zextLimbs_cons (w : Word) (ws : List Word) :
    zextLimbs (w :: ws) = w.toNat + 2 ^ 32 * zextLimbs ws := rfl

theorem zextLimbs_lt (ws : List Word) : zextLimbs ws < 2 ^ (32 * ws.length) := by
  induction ws with
  | nil => simp
  | cons w ws ih =>
    have hw := w.isLt
    have hp : 2 ^ (32 * (w :: ws).length) = 2 ^ 32 * 2 ^ (32 * ws.length) := by
      rw [← pow_add, List.length_cons]; congr 1; ring
    rw [hp, zextLimbs_cons]
    generalize hP : 2 ^ (32 * ws.length) = P at *
    omega

@[simp] theorem encLimbs_length (n : Nat) (z : Int) : (encLimbs n z).length = n := by
  induction n generalizing z with
  | zero => rfl
  | succ n ih => simp [encLimbs, ih]

/-- `zext_W(enc_W(z)) = z mod 2^W` (00_scope.md section 5). -/
theorem zextLimbs_encLimbs (n : Nat) (z : Int) :
    (zextLimbs (encLimbs n z) : Int) = z % ((2 ^ (32 * n) : Nat) : Int) := by
  induction n generalizing z with
  | zero => simp [encLimbs]
  | succ n ih =>
    have hq : fdiv z 4294967296 = z / 4294967296 := fdiv_eq_ediv (by norm_num)
    have hw : ((BitVec.ofInt 32 z).toNat : Int) = z % 4294967296 := by
      rw [BitVec.toNat_ofInt]; simp; omega
    have hp : ((2 ^ (32 * (n + 1)) : Nat) : Int) = 4294967296 * ((2 ^ (32 * n) : Nat) : Int) := by
      push_cast; rw [show 32 * (n + 1) = 32 + 32 * n by ring, pow_add]; norm_num
    have hP : 0 < ((2 ^ (32 * n) : Nat) : Int) := by positivity
    rw [encLimbs, zextLimbs_cons, Nat.cast_add, Nat.cast_mul, ih, hw, hq, hp]
    generalize ((2 ^ (32 * n) : Nat) : Int) = P at *
    have h := Int.ediv_ediv_of_nonneg (x := z) (y := 4294967296) (z := P) (by norm_num)
    rw [Int.emod_def z (4294967296 * P), Int.emod_def (z / 4294967296) P, h, Int.emod_def z 4294967296]
    push_cast; ring

/-- A big register holds a value that fits its width (10_state.md R10). -/
theorem fits_sextLimbs {L : Nat} {ws : List Word} (h : ws.length = L) (hL : 1 ≤ L) : Config.fits L (sextLimbs ws) := by
  have hlt := zextLimbs_lt ws
  have hp : 2 ^ (32 * L) = 2 * 2 ^ (32 * L - 1) := by
    rw [← pow_succ']; congr 1; omega
  rw [h] at hlt
  unfold Config.fits Config.minInt Config.maxInt Config.width sextLimbs
  rw [h]
  generalize hP : 2 ^ (32 * L - 1) = P at *
  split <;> omega

/-- `sext_W(enc_W(z)) = z` for a value that fits (00_scope.md section 5). -/
theorem sextLimbs_encLimbs {L : Nat} {z : Int} (hL : 1 ≤ L) (hz : Config.fits L z) : sextLimbs (encLimbs L z) = z := by
  have hp : 2 ^ (32 * L) = 2 * 2 ^ (32 * L - 1) := by
    rw [← pow_succ']; congr 1; omega
  have hzx := zextLimbs_encLimbs L z
  unfold Config.fits Config.minInt Config.maxInt Config.width at hz
  unfold sextLimbs
  rw [encLimbs_length]
  rw [hp] at *
  have hP : 0 < 2 ^ (32 * L - 1) := by positivity
  generalize 2 ^ (32 * L - 1) = P at *
  by_cases h0 : 0 ≤ z
  · rw [Int.emod_eq_of_lt h0 (by omega)] at hzx
    split <;> omega
  · rw [← Int.add_emod_right, Int.emod_eq_of_lt (by omega) (by omega)] at hzx
    split <;> omega

/-- `limb(X, k)` of an encoded value: bits `32k+31 : 32k` (20_memory.md R43). -/
theorem encLimbs_getD (n k : Nat) (z : Int) (hk : k < n) :
    (encLimbs n z).getD k 0#32 = BitVec.ofInt 32 (z / ((2 ^ (32 * k) : Nat) : Int)) := by
  induction n generalizing z k with
  | zero => omega
  | succ n ih =>
    cases k with
    | zero => simp [encLimbs]
    | succ k =>
      have hp : ((2 ^ (32 * (k + 1)) : Nat) : Int) = 4294967296 * ((2 ^ (32 * k) : Nat) : Int) := by
        push_cast; rw [show 32 * (k + 1) = 32 + 32 * k by ring, pow_add]; norm_num
      rw [encLimbs, List.getD_cons_succ, ih k _ (by omega), fdiv_eq_ediv (by norm_num), hp,
        Int.ediv_ediv_of_nonneg (by norm_num)]

@[simp] theorem zextLimbs_replicate_zero (L : Nat) : zextLimbs (List.replicate L 0#32) = 0 := by
  induction L with
  | zero => rfl
  | succ n ih => simp [List.replicate_succ, ih]

@[simp] theorem sextLimbs_replicate_zero (L : Nat) : sextLimbs (List.replicate L 0#32) = 0 := by
  simp [sextLimbs]

@[simp] theorem encLimbs_zero (L : Nat) : encLimbs L 0 = List.replicate L 0#32 := by
  induction L with
  | zero => rfl
  | succ n ih => simp [encLimbs, List.replicate_succ, fdiv, ih]

/-- Registers of one width that hold the same unsigned integer are the same limbs. -/
theorem zextLimbs_injective {xs ys : List Word} (hl : xs.length = ys.length) (h : zextLimbs xs = zextLimbs ys) :
    xs = ys := by
  induction xs generalizing ys with
  | nil => exact (List.length_eq_zero_iff.mp hl.symm).symm
  | cons x xs ih =>
    cases ys with
    | nil => simp at hl
    | cons y ys =>
      have hx := x.isLt
      have hy := y.isLt
      simp only [zextLimbs_cons, List.length_cons] at h hl
      have hxy : x = y := BitVec.eq_of_toNat_eq (by omega)
      have hs : xs = ys := ih (by omega) (by omega)
      rw [hxy, hs]

/-- A big register is the encoding of the integer it holds. -/
theorem encLimbs_sextLimbs (ws : List Word) : encLimbs ws.length (sextLimbs ws) = ws := by
  refine zextLimbs_injective (encLimbs_length _ _) ?_
  have h := zextLimbs_encLimbs ws.length (sextLimbs ws)
  have hlt := zextLimbs_lt ws
  unfold sextLimbs at h ⊢
  generalize hP : 2 ^ (32 * ws.length) = P at *
  split at h
  · next hc => rw [if_pos hc]; rw [Int.emod_eq_of_lt (by omega) (by omega)] at h; omega
  · next hc =>
    rw [if_neg hc]
    rw [← Int.add_emod_right, Int.emod_eq_of_lt (by omega) (by omega)] at h; omega

theorem fits_zero {L : Nat} : Config.fits L 0 := by
  have hP : 0 < 2 ^ (Config.width L - 1) := by positivity
  unfold Config.fits Config.minInt Config.maxInt
  omega

end Sys2Proof.Machine
end

