-- ==== Sys2Proof/Laws/State.lean ====
section
/-! SUPPORT. One lemma per field for each update of the state, so that no proof unfolds an update. -/

namespace Sys2Proof.Machine

/-! `accept`. -/

@[simp] theorem accept_L (s : State) (v : Word) : (accept s v).L = s.L := rfl
@[simp] theorem accept_A (s : State) (v : Word) : (accept s v).A = s.A := rfl
@[simp] theorem accept_B (s : State) (v : Word) : (accept s v).B = s.B := rfl
@[simp] theorem accept_C (s : State) (v : Word) : (accept s v).C = s.C := rfl
@[simp] theorem accept_R0 (s : State) (v : Word) : (accept s v).R0 = zeroLimbs s.L := rfl
@[simp] theorem accept_R1 (s : State) (v : Word) : (accept s v).R1 = zeroLimbs s.L := rfl
@[simp] theorem accept_R2 (s : State) (v : Word) : (accept s v).R2 = zeroLimbs s.L := rfl
@[simp] theorem accept_CMD (s : State) (v : Word) : (accept s v).CMD = v := rfl
@[simp] theorem accept_BUSY (s : State) (v : Word) : (accept s v).BUSY = true := rfl
@[simp] theorem accept_DONE (s : State) (v : Word) : (accept s v).DONE = false := rfl
@[simp] theorem accept_ERR (s : State) (v : Word) : (accept s v).ERR = .noError := rfl
@[simp] theorem accept_SEQ (s : State) (v : Word) : (accept s v).SEQ = .START := rfl
@[simp] theorem accept_ACC (s : State) (v : Word) : (accept s v).ACC = s.ACC := rfl
@[simp] theorem accept_BS (s : State) (v : Word) : (accept s v).BS = s.BS := rfl
@[simp] theorem accept_EX (s : State) (v : Word) : (accept s v).EX = s.EX := rfl
@[simp] theorem accept_MD (s : State) (v : Word) : (accept s v).MD = s.MD := rfl
@[simp] theorem accept_I (s : State) (v : Word) : (accept s v).I = s.I := rfl
@[simp] theorem accept_RA (s : State) (v : Word) : (accept s v).RA = s.RA := rfl
@[simp] theorem accept_RB (s : State) (v : Word) : (accept s v).RB = s.RB := rfl
@[simp] theorem accept_SA (s : State) (v : Word) : (accept s v).SA = s.SA := rfl
@[simp] theorem accept_SB (s : State) (v : Word) : (accept s v).SB = s.SB := rfl
@[simp] theorem accept_TA (s : State) (v : Word) : (accept s v).TA = s.TA := rfl
@[simp] theorem accept_TB (s : State) (v : Word) : (accept s v).TB = s.TB := rfl
@[simp] theorem accept_FIN (s : State) (v : Word) : (accept s v).FIN = s.FIN := rfl
@[simp] theorem accept_turns (s : State) (v : Word) : (accept s v).turns = s.turns := rfl
@[simp] theorem accept_reads (s : State) (v : Word) : (accept s v).reads = s.reads := rfl

/-! `complete`. -/

@[simp] theorem complete_L (s : State) (r0 r1 r2 : Int) : (complete s r0 r1 r2).L = s.L := rfl
@[simp] theorem complete_A (s : State) (r0 r1 r2 : Int) : (complete s r0 r1 r2).A = s.A := rfl
@[simp] theorem complete_B (s : State) (r0 r1 r2 : Int) : (complete s r0 r1 r2).B = s.B := rfl
@[simp] theorem complete_C (s : State) (r0 r1 r2 : Int) : (complete s r0 r1 r2).C = s.C := rfl
@[simp] theorem complete_R0 (s : State) (r0 r1 r2 : Int) : (complete s r0 r1 r2).R0 = encLimbs s.L r0 := rfl
@[simp] theorem complete_R1 (s : State) (r0 r1 r2 : Int) : (complete s r0 r1 r2).R1 = encLimbs s.L r1 := rfl
@[simp] theorem complete_R2 (s : State) (r0 r1 r2 : Int) : (complete s r0 r1 r2).R2 = encLimbs s.L r2 := rfl
@[simp] theorem complete_CMD (s : State) (r0 r1 r2 : Int) : (complete s r0 r1 r2).CMD = s.CMD := rfl
@[simp] theorem complete_BUSY (s : State) (r0 r1 r2 : Int) : (complete s r0 r1 r2).BUSY = false := rfl
@[simp] theorem complete_DONE (s : State) (r0 r1 r2 : Int) : (complete s r0 r1 r2).DONE = true := rfl
@[simp] theorem complete_ERR (s : State) (r0 r1 r2 : Int) : (complete s r0 r1 r2).ERR = .noError := rfl
@[simp] theorem complete_SEQ (s : State) (r0 r1 r2 : Int) : (complete s r0 r1 r2).SEQ = .IDLE := rfl
@[simp] theorem complete_ACC (s : State) (r0 r1 r2 : Int) : (complete s r0 r1 r2).ACC = s.ACC := rfl
@[simp] theorem complete_BS (s : State) (r0 r1 r2 : Int) : (complete s r0 r1 r2).BS = s.BS := rfl
@[simp] theorem complete_EX (s : State) (r0 r1 r2 : Int) : (complete s r0 r1 r2).EX = s.EX := rfl
@[simp] theorem complete_MD (s : State) (r0 r1 r2 : Int) : (complete s r0 r1 r2).MD = s.MD := rfl
@[simp] theorem complete_I (s : State) (r0 r1 r2 : Int) : (complete s r0 r1 r2).I = s.I := rfl
@[simp] theorem complete_RA (s : State) (r0 r1 r2 : Int) : (complete s r0 r1 r2).RA = s.RA := rfl
@[simp] theorem complete_RB (s : State) (r0 r1 r2 : Int) : (complete s r0 r1 r2).RB = s.RB := rfl
@[simp] theorem complete_SA (s : State) (r0 r1 r2 : Int) : (complete s r0 r1 r2).SA = s.SA := rfl
@[simp] theorem complete_SB (s : State) (r0 r1 r2 : Int) : (complete s r0 r1 r2).SB = s.SB := rfl
@[simp] theorem complete_TA (s : State) (r0 r1 r2 : Int) : (complete s r0 r1 r2).TA = s.TA := rfl
@[simp] theorem complete_TB (s : State) (r0 r1 r2 : Int) : (complete s r0 r1 r2).TB = s.TB := rfl
@[simp] theorem complete_FIN (s : State) (r0 r1 r2 : Int) : (complete s r0 r1 r2).FIN = s.FIN := rfl
@[simp] theorem complete_turns (s : State) (r0 r1 r2 : Int) : (complete s r0 r1 r2).turns = s.turns := rfl
@[simp] theorem complete_reads (s : State) (r0 r1 r2 : Int) : (complete s r0 r1 r2).reads = s.reads := rfl

/-! `raise`. -/

@[simp] theorem raise_L (s : State) (e : Err) : (raise s e).L = s.L := rfl
@[simp] theorem raise_A (s : State) (e : Err) : (raise s e).A = s.A := rfl
@[simp] theorem raise_B (s : State) (e : Err) : (raise s e).B = s.B := rfl
@[simp] theorem raise_C (s : State) (e : Err) : (raise s e).C = s.C := rfl
@[simp] theorem raise_R0 (s : State) (e : Err) : (raise s e).R0 = zeroLimbs s.L := rfl
@[simp] theorem raise_R1 (s : State) (e : Err) : (raise s e).R1 = zeroLimbs s.L := rfl
@[simp] theorem raise_R2 (s : State) (e : Err) : (raise s e).R2 = zeroLimbs s.L := rfl
@[simp] theorem raise_CMD (s : State) (e : Err) : (raise s e).CMD = s.CMD := rfl
@[simp] theorem raise_BUSY (s : State) (e : Err) : (raise s e).BUSY = false := rfl
@[simp] theorem raise_DONE (s : State) (e : Err) : (raise s e).DONE = true := rfl
@[simp] theorem raise_ERR (s : State) (e : Err) : (raise s e).ERR = e := rfl
@[simp] theorem raise_SEQ (s : State) (e : Err) : (raise s e).SEQ = .IDLE := rfl
@[simp] theorem raise_ACC (s : State) (e : Err) : (raise s e).ACC = s.ACC := rfl
@[simp] theorem raise_BS (s : State) (e : Err) : (raise s e).BS = s.BS := rfl
@[simp] theorem raise_EX (s : State) (e : Err) : (raise s e).EX = s.EX := rfl
@[simp] theorem raise_MD (s : State) (e : Err) : (raise s e).MD = s.MD := rfl
@[simp] theorem raise_I (s : State) (e : Err) : (raise s e).I = s.I := rfl
@[simp] theorem raise_RA (s : State) (e : Err) : (raise s e).RA = s.RA := rfl
@[simp] theorem raise_RB (s : State) (e : Err) : (raise s e).RB = s.RB := rfl
@[simp] theorem raise_SA (s : State) (e : Err) : (raise s e).SA = s.SA := rfl
@[simp] theorem raise_SB (s : State) (e : Err) : (raise s e).SB = s.SB := rfl
@[simp] theorem raise_TA (s : State) (e : Err) : (raise s e).TA = s.TA := rfl
@[simp] theorem raise_TB (s : State) (e : Err) : (raise s e).TB = s.TB := rfl
@[simp] theorem raise_FIN (s : State) (e : Err) : (raise s e).FIN = s.FIN := rfl
@[simp] theorem raise_turns (s : State) (e : Err) : (raise s e).turns = s.turns := rfl
@[simp] theorem raise_reads (s : State) (e : Err) : (raise s e).reads = s.reads := rfl

/-! `returnWord`. -/

@[simp] theorem returnWord_L (s : State) (v : Word) : (returnWord s v).L = s.L := rfl
@[simp] theorem returnWord_A (s : State) (v : Word) : (returnWord s v).A = s.A := rfl
@[simp] theorem returnWord_B (s : State) (v : Word) : (returnWord s v).B = s.B := rfl
@[simp] theorem returnWord_C (s : State) (v : Word) : (returnWord s v).C = s.C := rfl
@[simp] theorem returnWord_R0 (s : State) (v : Word) : (returnWord s v).R0 = s.R0 := rfl
@[simp] theorem returnWord_R1 (s : State) (v : Word) : (returnWord s v).R1 = s.R1 := rfl
@[simp] theorem returnWord_R2 (s : State) (v : Word) : (returnWord s v).R2 = s.R2 := rfl
@[simp] theorem returnWord_CMD (s : State) (v : Word) : (returnWord s v).CMD = s.CMD := rfl
@[simp] theorem returnWord_BUSY (s : State) (v : Word) : (returnWord s v).BUSY = s.BUSY := rfl
@[simp] theorem returnWord_DONE (s : State) (v : Word) : (returnWord s v).DONE = s.DONE := rfl
@[simp] theorem returnWord_ERR (s : State) (v : Word) : (returnWord s v).ERR = s.ERR := rfl
@[simp] theorem returnWord_SEQ (s : State) (v : Word) : (returnWord s v).SEQ = s.SEQ := rfl
@[simp] theorem returnWord_ACC (s : State) (v : Word) : (returnWord s v).ACC = s.ACC := rfl
@[simp] theorem returnWord_BS (s : State) (v : Word) : (returnWord s v).BS = s.BS := rfl
@[simp] theorem returnWord_EX (s : State) (v : Word) : (returnWord s v).EX = s.EX := rfl
@[simp] theorem returnWord_MD (s : State) (v : Word) : (returnWord s v).MD = s.MD := rfl
@[simp] theorem returnWord_I (s : State) (v : Word) : (returnWord s v).I = s.I := rfl
@[simp] theorem returnWord_RA (s : State) (v : Word) : (returnWord s v).RA = s.RA := rfl
@[simp] theorem returnWord_RB (s : State) (v : Word) : (returnWord s v).RB = s.RB := rfl
@[simp] theorem returnWord_SA (s : State) (v : Word) : (returnWord s v).SA = s.SA := rfl
@[simp] theorem returnWord_SB (s : State) (v : Word) : (returnWord s v).SB = s.SB := rfl
@[simp] theorem returnWord_TA (s : State) (v : Word) : (returnWord s v).TA = s.TA := rfl
@[simp] theorem returnWord_TB (s : State) (v : Word) : (returnWord s v).TB = s.TB := rfl
@[simp] theorem returnWord_FIN (s : State) (v : Word) : (returnWord s v).FIN = s.FIN := rfl
@[simp] theorem returnWord_turns (s : State) (v : Word) : (returnWord s v).turns = s.turns := rfl
@[simp] theorem returnWord_reads (s : State) (v : Word) : (returnWord s v).reads = v :: s.reads := rfl

/-! `euclidPass`. -/

@[simp] theorem euclidPass_L (s : State) : (euclidPass s).L = s.L := rfl
@[simp] theorem euclidPass_A (s : State) : (euclidPass s).A = s.A := rfl
@[simp] theorem euclidPass_B (s : State) : (euclidPass s).B = s.B := rfl
@[simp] theorem euclidPass_C (s : State) : (euclidPass s).C = s.C := rfl
@[simp] theorem euclidPass_R0 (s : State) : (euclidPass s).R0 = s.R0 := rfl
@[simp] theorem euclidPass_R1 (s : State) : (euclidPass s).R1 = s.R1 := rfl
@[simp] theorem euclidPass_R2 (s : State) : (euclidPass s).R2 = s.R2 := rfl
@[simp] theorem euclidPass_CMD (s : State) : (euclidPass s).CMD = s.CMD := rfl
@[simp] theorem euclidPass_BUSY (s : State) : (euclidPass s).BUSY = s.BUSY := rfl
@[simp] theorem euclidPass_DONE (s : State) : (euclidPass s).DONE = s.DONE := rfl
@[simp] theorem euclidPass_ERR (s : State) : (euclidPass s).ERR = s.ERR := rfl
@[simp] theorem euclidPass_SEQ (s : State) : (euclidPass s).SEQ = s.SEQ := rfl
@[simp] theorem euclidPass_ACC (s : State) : (euclidPass s).ACC = s.ACC := rfl
@[simp] theorem euclidPass_BS (s : State) : (euclidPass s).BS = s.BS := rfl
@[simp] theorem euclidPass_EX (s : State) : (euclidPass s).EX = s.EX := rfl
@[simp] theorem euclidPass_MD (s : State) : (euclidPass s).MD = s.MD := rfl
@[simp] theorem euclidPass_I (s : State) : (euclidPass s).I = s.I := rfl
@[simp] theorem euclidPass_RA (s : State) : (euclidPass s).RA = s.RB := rfl
@[simp] theorem euclidPass_RB (s : State) : (euclidPass s).RB = s.RA - fdiv s.RA s.RB * s.RB := rfl
@[simp] theorem euclidPass_SA (s : State) : (euclidPass s).SA = s.SB := rfl
@[simp] theorem euclidPass_SB (s : State) : (euclidPass s).SB = s.SA - fdiv s.RA s.RB * s.SB := rfl
@[simp] theorem euclidPass_TA (s : State) : (euclidPass s).TA = s.TB := rfl
@[simp] theorem euclidPass_TB (s : State) : (euclidPass s).TB = s.TA - fdiv s.RA s.RB * s.TB := rfl
@[simp] theorem euclidPass_FIN (s : State) : (euclidPass s).FIN = s.FIN := rfl
@[simp] theorem euclidPass_turns (s : State) : (euclidPass s).turns = s.turns := rfl
@[simp] theorem euclidPass_reads (s : State) : (euclidPass s).reads = s.reads := rfl

/-! `invLoad`. -/

@[simp] theorem invLoad_L (s : State) (a m : Int) : (invLoad s a m).L = s.L := rfl
@[simp] theorem invLoad_A (s : State) (a m : Int) : (invLoad s a m).A = s.A := rfl
@[simp] theorem invLoad_B (s : State) (a m : Int) : (invLoad s a m).B = s.B := rfl
@[simp] theorem invLoad_C (s : State) (a m : Int) : (invLoad s a m).C = s.C := rfl
@[simp] theorem invLoad_R0 (s : State) (a m : Int) : (invLoad s a m).R0 = s.R0 := rfl
@[simp] theorem invLoad_R1 (s : State) (a m : Int) : (invLoad s a m).R1 = s.R1 := rfl
@[simp] theorem invLoad_R2 (s : State) (a m : Int) : (invLoad s a m).R2 = s.R2 := rfl
@[simp] theorem invLoad_CMD (s : State) (a m : Int) : (invLoad s a m).CMD = s.CMD := rfl
@[simp] theorem invLoad_BUSY (s : State) (a m : Int) : (invLoad s a m).BUSY = s.BUSY := rfl
@[simp] theorem invLoad_DONE (s : State) (a m : Int) : (invLoad s a m).DONE = s.DONE := rfl
@[simp] theorem invLoad_ERR (s : State) (a m : Int) : (invLoad s a m).ERR = s.ERR := rfl
@[simp] theorem invLoad_SEQ (s : State) (a m : Int) : (invLoad s a m).SEQ = .EGCD_ITER := rfl
@[simp] theorem invLoad_ACC (s : State) (a m : Int) : (invLoad s a m).ACC = s.ACC := rfl
@[simp] theorem invLoad_BS (s : State) (a m : Int) : (invLoad s a m).BS = s.BS := rfl
@[simp] theorem invLoad_EX (s : State) (a m : Int) : (invLoad s a m).EX = s.EX := rfl
@[simp] theorem invLoad_MD (s : State) (a m : Int) : (invLoad s a m).MD = m := rfl
@[simp] theorem invLoad_I (s : State) (a m : Int) : (invLoad s a m).I = s.I := rfl
@[simp] theorem invLoad_RA (s : State) (a m : Int) : (invLoad s a m).RA = a := rfl
@[simp] theorem invLoad_RB (s : State) (a m : Int) : (invLoad s a m).RB = m := rfl
@[simp] theorem invLoad_SA (s : State) (a m : Int) : (invLoad s a m).SA = 1 := rfl
@[simp] theorem invLoad_SB (s : State) (a m : Int) : (invLoad s a m).SB = 0 := rfl
@[simp] theorem invLoad_TA (s : State) (a m : Int) : (invLoad s a m).TA = 0 := rfl
@[simp] theorem invLoad_TB (s : State) (a m : Int) : (invLoad s a m).TB = 1 := rfl
@[simp] theorem invLoad_FIN (s : State) (a m : Int) : (invLoad s a m).FIN = .FIN_INV := rfl
@[simp] theorem invLoad_turns (s : State) (a m : Int) : (invLoad s a m).turns = s.turns := rfl
@[simp] theorem invLoad_reads (s : State) (a m : Int) : (invLoad s a m).reads = s.reads := rfl

/-! `placeWord`. -/

@[simp] theorem placeWord_L (s : State) (v : Word) : (placeWord s v).L = s.L := rfl
@[simp] theorem placeWord_A (s : State) (v : Word) : (placeWord s v).A = s.A := rfl
@[simp] theorem placeWord_B (s : State) (v : Word) : (placeWord s v).B = s.B := rfl
@[simp] theorem placeWord_C (s : State) (v : Word) : (placeWord s v).C = s.C := rfl
@[simp] theorem placeWord_R0 (s : State) (v : Word) : (placeWord s v).R0 = zeroLimbs s.L := rfl
@[simp] theorem placeWord_R1 (s : State) (v : Word) : (placeWord s v).R1 = zeroLimbs s.L := rfl
@[simp] theorem placeWord_R2 (s : State) (v : Word) : (placeWord s v).R2 = zeroLimbs s.L := rfl
@[simp] theorem placeWord_CMD (s : State) (v : Word) : (placeWord s v).CMD = v := rfl
@[simp] theorem placeWord_BUSY (s : State) (v : Word) : (placeWord s v).BUSY = true := rfl
@[simp] theorem placeWord_DONE (s : State) (v : Word) : (placeWord s v).DONE = false := rfl
@[simp] theorem placeWord_ERR (s : State) (v : Word) : (placeWord s v).ERR = .noError := rfl
@[simp] theorem placeWord_SEQ (s : State) (v : Word) : (placeWord s v).SEQ = .START := rfl
@[simp] theorem placeWord_ACC (s : State) (v : Word) : (placeWord s v).ACC = s.ACC := rfl
@[simp] theorem placeWord_BS (s : State) (v : Word) : (placeWord s v).BS = s.BS := rfl
@[simp] theorem placeWord_EX (s : State) (v : Word) : (placeWord s v).EX = s.EX := rfl
@[simp] theorem placeWord_MD (s : State) (v : Word) : (placeWord s v).MD = s.MD := rfl
@[simp] theorem placeWord_I (s : State) (v : Word) : (placeWord s v).I = s.I := rfl
@[simp] theorem placeWord_RA (s : State) (v : Word) : (placeWord s v).RA = s.RA := rfl
@[simp] theorem placeWord_RB (s : State) (v : Word) : (placeWord s v).RB = s.RB := rfl
@[simp] theorem placeWord_SA (s : State) (v : Word) : (placeWord s v).SA = s.SA := rfl
@[simp] theorem placeWord_SB (s : State) (v : Word) : (placeWord s v).SB = s.SB := rfl
@[simp] theorem placeWord_TA (s : State) (v : Word) : (placeWord s v).TA = s.TA := rfl
@[simp] theorem placeWord_TB (s : State) (v : Word) : (placeWord s v).TB = s.TB := rfl
@[simp] theorem placeWord_FIN (s : State) (v : Word) : (placeWord s v).FIN = s.FIN := rfl
@[simp] theorem placeWord_turns (s : State) (v : Word) : (placeWord s v).turns = .command :: s.turns := rfl
@[simp] theorem placeWord_reads (s : State) (v : Word) : (placeWord s v).reads = s.reads := rfl

/-! `resetInput`. -/

@[simp] theorem resetInput_L (s : State) : (resetInput s).L = s.L := rfl
@[simp] theorem resetInput_A (s : State) : (resetInput s).A = zeroLimbs s.L := rfl
@[simp] theorem resetInput_B (s : State) : (resetInput s).B = zeroLimbs s.L := rfl
@[simp] theorem resetInput_C (s : State) : (resetInput s).C = zeroLimbs s.L := rfl
@[simp] theorem resetInput_R0 (s : State) : (resetInput s).R0 = zeroLimbs s.L := rfl
@[simp] theorem resetInput_R1 (s : State) : (resetInput s).R1 = zeroLimbs s.L := rfl
@[simp] theorem resetInput_R2 (s : State) : (resetInput s).R2 = zeroLimbs s.L := rfl
@[simp] theorem resetInput_CMD (s : State) : (resetInput s).CMD = 0 := rfl
@[simp] theorem resetInput_BUSY (s : State) : (resetInput s).BUSY = false := rfl
@[simp] theorem resetInput_DONE (s : State) : (resetInput s).DONE = false := rfl
@[simp] theorem resetInput_ERR (s : State) : (resetInput s).ERR = .noError := rfl
@[simp] theorem resetInput_SEQ (s : State) : (resetInput s).SEQ = .IDLE := rfl
@[simp] theorem resetInput_ACC (s : State) : (resetInput s).ACC = 0 := rfl
@[simp] theorem resetInput_BS (s : State) : (resetInput s).BS = 0 := rfl
@[simp] theorem resetInput_EX (s : State) : (resetInput s).EX = 0 := rfl
@[simp] theorem resetInput_MD (s : State) : (resetInput s).MD = 0 := rfl
@[simp] theorem resetInput_I (s : State) : (resetInput s).I = 0 := rfl
@[simp] theorem resetInput_RA (s : State) : (resetInput s).RA = 0 := rfl
@[simp] theorem resetInput_RB (s : State) : (resetInput s).RB = 0 := rfl
@[simp] theorem resetInput_SA (s : State) : (resetInput s).SA = 0 := rfl
@[simp] theorem resetInput_SB (s : State) : (resetInput s).SB = 0 := rfl
@[simp] theorem resetInput_TA (s : State) : (resetInput s).TA = 0 := rfl
@[simp] theorem resetInput_TB (s : State) : (resetInput s).TB = 0 := rfl
@[simp] theorem resetInput_FIN (s : State) : (resetInput s).FIN = .FIN_EGCD := rfl
@[simp] theorem resetInput_turns (s : State) : (resetInput s).turns = s.turns := rfl
@[simp] theorem resetInput_reads (s : State) : (resetInput s).reads = s.reads := rfl

/-! `State.withTurns`. -/

@[simp] theorem withTurns_L (s : State) (ts : List Turn) : (s.withTurns ts).L = s.L := rfl
@[simp] theorem withTurns_A (s : State) (ts : List Turn) : (s.withTurns ts).A = s.A := rfl
@[simp] theorem withTurns_B (s : State) (ts : List Turn) : (s.withTurns ts).B = s.B := rfl
@[simp] theorem withTurns_C (s : State) (ts : List Turn) : (s.withTurns ts).C = s.C := rfl
@[simp] theorem withTurns_R0 (s : State) (ts : List Turn) : (s.withTurns ts).R0 = s.R0 := rfl
@[simp] theorem withTurns_R1 (s : State) (ts : List Turn) : (s.withTurns ts).R1 = s.R1 := rfl
@[simp] theorem withTurns_R2 (s : State) (ts : List Turn) : (s.withTurns ts).R2 = s.R2 := rfl
@[simp] theorem withTurns_CMD (s : State) (ts : List Turn) : (s.withTurns ts).CMD = s.CMD := rfl
@[simp] theorem withTurns_BUSY (s : State) (ts : List Turn) : (s.withTurns ts).BUSY = s.BUSY := rfl
@[simp] theorem withTurns_DONE (s : State) (ts : List Turn) : (s.withTurns ts).DONE = s.DONE := rfl
@[simp] theorem withTurns_ERR (s : State) (ts : List Turn) : (s.withTurns ts).ERR = s.ERR := rfl
@[simp] theorem withTurns_SEQ (s : State) (ts : List Turn) : (s.withTurns ts).SEQ = s.SEQ := rfl
@[simp] theorem withTurns_ACC (s : State) (ts : List Turn) : (s.withTurns ts).ACC = s.ACC := rfl
@[simp] theorem withTurns_BS (s : State) (ts : List Turn) : (s.withTurns ts).BS = s.BS := rfl
@[simp] theorem withTurns_EX (s : State) (ts : List Turn) : (s.withTurns ts).EX = s.EX := rfl
@[simp] theorem withTurns_MD (s : State) (ts : List Turn) : (s.withTurns ts).MD = s.MD := rfl
@[simp] theorem withTurns_I (s : State) (ts : List Turn) : (s.withTurns ts).I = s.I := rfl
@[simp] theorem withTurns_RA (s : State) (ts : List Turn) : (s.withTurns ts).RA = s.RA := rfl
@[simp] theorem withTurns_RB (s : State) (ts : List Turn) : (s.withTurns ts).RB = s.RB := rfl
@[simp] theorem withTurns_SA (s : State) (ts : List Turn) : (s.withTurns ts).SA = s.SA := rfl
@[simp] theorem withTurns_SB (s : State) (ts : List Turn) : (s.withTurns ts).SB = s.SB := rfl
@[simp] theorem withTurns_TA (s : State) (ts : List Turn) : (s.withTurns ts).TA = s.TA := rfl
@[simp] theorem withTurns_TB (s : State) (ts : List Turn) : (s.withTurns ts).TB = s.TB := rfl
@[simp] theorem withTurns_FIN (s : State) (ts : List Turn) : (s.withTurns ts).FIN = s.FIN := rfl
@[simp] theorem withTurns_turns (s : State) (ts : List Turn) : (s.withTurns ts).turns = ts := rfl
@[simp] theorem withTurns_reads (s : State) (ts : List Turn) : (s.withTurns ts).reads = s.reads := rfl

/-! `readTurn`. -/

@[simp] theorem readTurn_L (s : State) (addr : Addr) : (readTurn s addr).L = s.L := rfl
@[simp] theorem readTurn_A (s : State) (addr : Addr) : (readTurn s addr).A = s.A := rfl
@[simp] theorem readTurn_B (s : State) (addr : Addr) : (readTurn s addr).B = s.B := rfl
@[simp] theorem readTurn_C (s : State) (addr : Addr) : (readTurn s addr).C = s.C := rfl
@[simp] theorem readTurn_R0 (s : State) (addr : Addr) : (readTurn s addr).R0 = s.R0 := rfl
@[simp] theorem readTurn_R1 (s : State) (addr : Addr) : (readTurn s addr).R1 = s.R1 := rfl
@[simp] theorem readTurn_R2 (s : State) (addr : Addr) : (readTurn s addr).R2 = s.R2 := rfl
@[simp] theorem readTurn_CMD (s : State) (addr : Addr) : (readTurn s addr).CMD = s.CMD := rfl
@[simp] theorem readTurn_BUSY (s : State) (addr : Addr) : (readTurn s addr).BUSY = s.BUSY := rfl
@[simp] theorem readTurn_DONE (s : State) (addr : Addr) : (readTurn s addr).DONE = s.DONE := rfl
@[simp] theorem readTurn_ERR (s : State) (addr : Addr) : (readTurn s addr).ERR = s.ERR := rfl
@[simp] theorem readTurn_SEQ (s : State) (addr : Addr) : (readTurn s addr).SEQ = s.SEQ := rfl
@[simp] theorem readTurn_ACC (s : State) (addr : Addr) : (readTurn s addr).ACC = s.ACC := rfl
@[simp] theorem readTurn_BS (s : State) (addr : Addr) : (readTurn s addr).BS = s.BS := rfl
@[simp] theorem readTurn_EX (s : State) (addr : Addr) : (readTurn s addr).EX = s.EX := rfl
@[simp] theorem readTurn_MD (s : State) (addr : Addr) : (readTurn s addr).MD = s.MD := rfl
@[simp] theorem readTurn_I (s : State) (addr : Addr) : (readTurn s addr).I = s.I := rfl
@[simp] theorem readTurn_RA (s : State) (addr : Addr) : (readTurn s addr).RA = s.RA := rfl
@[simp] theorem readTurn_RB (s : State) (addr : Addr) : (readTurn s addr).RB = s.RB := rfl
@[simp] theorem readTurn_SA (s : State) (addr : Addr) : (readTurn s addr).SA = s.SA := rfl
@[simp] theorem readTurn_SB (s : State) (addr : Addr) : (readTurn s addr).SB = s.SB := rfl
@[simp] theorem readTurn_TA (s : State) (addr : Addr) : (readTurn s addr).TA = s.TA := rfl
@[simp] theorem readTurn_TB (s : State) (addr : Addr) : (readTurn s addr).TB = s.TB := rfl
@[simp] theorem readTurn_FIN (s : State) (addr : Addr) : (readTurn s addr).FIN = s.FIN := rfl
@[simp] theorem readTurn_turns (s : State) (addr : Addr) : (readTurn s addr).turns = s.turns := rfl
@[simp] theorem readTurn_reads (s : State) (addr : Addr) : (readTurn s addr).reads = hostRead s addr :: s.reads := rfl

/-! `State.forgetWork`. -/

@[simp] theorem forgetWork_L (s : State) : s.forgetWork.L = s.L := rfl
@[simp] theorem forgetWork_A (s : State) : s.forgetWork.A = s.A := rfl
@[simp] theorem forgetWork_B (s : State) : s.forgetWork.B = s.B := rfl
@[simp] theorem forgetWork_C (s : State) : s.forgetWork.C = s.C := rfl
@[simp] theorem forgetWork_R0 (s : State) : s.forgetWork.R0 = s.R0 := rfl
@[simp] theorem forgetWork_R1 (s : State) : s.forgetWork.R1 = s.R1 := rfl
@[simp] theorem forgetWork_R2 (s : State) : s.forgetWork.R2 = s.R2 := rfl
@[simp] theorem forgetWork_CMD (s : State) : s.forgetWork.CMD = s.CMD := rfl
@[simp] theorem forgetWork_BUSY (s : State) : s.forgetWork.BUSY = s.BUSY := rfl
@[simp] theorem forgetWork_DONE (s : State) : s.forgetWork.DONE = s.DONE := rfl
@[simp] theorem forgetWork_ERR (s : State) : s.forgetWork.ERR = s.ERR := rfl
@[simp] theorem forgetWork_SEQ (s : State) : s.forgetWork.SEQ = s.SEQ := rfl
@[simp] theorem forgetWork_ACC (s : State) : s.forgetWork.ACC = 0 := rfl
@[simp] theorem forgetWork_BS (s : State) : s.forgetWork.BS = 0 := rfl
@[simp] theorem forgetWork_EX (s : State) : s.forgetWork.EX = 0 := rfl
@[simp] theorem forgetWork_MD (s : State) : s.forgetWork.MD = 0 := rfl
@[simp] theorem forgetWork_I (s : State) : s.forgetWork.I = 0 := rfl
@[simp] theorem forgetWork_RA (s : State) : s.forgetWork.RA = 0 := rfl
@[simp] theorem forgetWork_RB (s : State) : s.forgetWork.RB = 0 := rfl
@[simp] theorem forgetWork_SA (s : State) : s.forgetWork.SA = 0 := rfl
@[simp] theorem forgetWork_SB (s : State) : s.forgetWork.SB = 0 := rfl
@[simp] theorem forgetWork_TA (s : State) : s.forgetWork.TA = 0 := rfl
@[simp] theorem forgetWork_TB (s : State) : s.forgetWork.TB = 0 := rfl
@[simp] theorem forgetWork_FIN (s : State) : s.forgetWork.FIN = .FIN_EGCD := rfl
@[simp] theorem forgetWork_turns (s : State) : s.forgetWork.turns = s.turns := rfl
@[simp] theorem forgetWork_reads (s : State) : s.forgetWork.reads = s.reads := rfl

/-! `setBig` and `big`. -/

@[simp] theorem setBig_L (s : State) (X : BigReg) (ws : List Word) : (s.setBig X ws).L = s.L := by cases X <;> rfl
@[simp] theorem setBig_CMD (s : State) (X : BigReg) (ws : List Word) : (s.setBig X ws).CMD = s.CMD := by cases X <;> rfl
@[simp] theorem setBig_BUSY (s : State) (X : BigReg) (ws : List Word) : (s.setBig X ws).BUSY = s.BUSY := by cases X <;> rfl
@[simp] theorem setBig_DONE (s : State) (X : BigReg) (ws : List Word) : (s.setBig X ws).DONE = s.DONE := by cases X <;> rfl
@[simp] theorem setBig_ERR (s : State) (X : BigReg) (ws : List Word) : (s.setBig X ws).ERR = s.ERR := by cases X <;> rfl
@[simp] theorem setBig_SEQ (s : State) (X : BigReg) (ws : List Word) : (s.setBig X ws).SEQ = s.SEQ := by cases X <;> rfl
@[simp] theorem setBig_ACC (s : State) (X : BigReg) (ws : List Word) : (s.setBig X ws).ACC = s.ACC := by cases X <;> rfl
@[simp] theorem setBig_BS (s : State) (X : BigReg) (ws : List Word) : (s.setBig X ws).BS = s.BS := by cases X <;> rfl
@[simp] theorem setBig_EX (s : State) (X : BigReg) (ws : List Word) : (s.setBig X ws).EX = s.EX := by cases X <;> rfl
@[simp] theorem setBig_MD (s : State) (X : BigReg) (ws : List Word) : (s.setBig X ws).MD = s.MD := by cases X <;> rfl
@[simp] theorem setBig_I (s : State) (X : BigReg) (ws : List Word) : (s.setBig X ws).I = s.I := by cases X <;> rfl
@[simp] theorem setBig_RA (s : State) (X : BigReg) (ws : List Word) : (s.setBig X ws).RA = s.RA := by cases X <;> rfl
@[simp] theorem setBig_RB (s : State) (X : BigReg) (ws : List Word) : (s.setBig X ws).RB = s.RB := by cases X <;> rfl
@[simp] theorem setBig_SA (s : State) (X : BigReg) (ws : List Word) : (s.setBig X ws).SA = s.SA := by cases X <;> rfl
@[simp] theorem setBig_SB (s : State) (X : BigReg) (ws : List Word) : (s.setBig X ws).SB = s.SB := by cases X <;> rfl
@[simp] theorem setBig_TA (s : State) (X : BigReg) (ws : List Word) : (s.setBig X ws).TA = s.TA := by cases X <;> rfl
@[simp] theorem setBig_TB (s : State) (X : BigReg) (ws : List Word) : (s.setBig X ws).TB = s.TB := by cases X <;> rfl
@[simp] theorem setBig_FIN (s : State) (X : BigReg) (ws : List Word) : (s.setBig X ws).FIN = s.FIN := by cases X <;> rfl
@[simp] theorem setBig_turns (s : State) (X : BigReg) (ws : List Word) : (s.setBig X ws).turns = s.turns := by cases X <;> rfl
@[simp] theorem setBig_reads (s : State) (X : BigReg) (ws : List Word) : (s.setBig X ws).reads = s.reads := by cases X <;> rfl

@[simp] theorem big_setBig_same (s : State) (X : BigReg) (ws : List Word) : (s.setBig X ws).big X = ws := by
  cases X <;> rfl

theorem big_setBig_ne (s : State) {X Y : BigReg} (ws : List Word) (h : Y ≠ X) : (s.setBig X ws).big Y = s.big Y := by
  cases X <;> cases Y <;> first | rfl | exact absurd rfl h

theorem big_setBig (s : State) (X Y : BigReg) (ws : List Word) :
    (s.setBig X ws).big Y = if Y = X then ws else s.big Y := by
  cases X <;> cases Y <;> rfl

@[simp] theorem setBig_big (s : State) (X : BigReg) : s.setBig X (s.big X) = s := by
  cases X <;> rfl

@[simp] theorem setBig_setBig (s : State) (X : BigReg) (us ws : List Word) :
    (s.setBig X us).setBig X ws = s.setBig X ws := by
  cases X <;> rfl

@[simp] theorem big_A (s : State) : s.big .A = s.A := rfl
@[simp] theorem big_B (s : State) : s.big .B = s.B := rfl
@[simp] theorem big_C (s : State) : s.big .C = s.C := rfl
@[simp] theorem big_R0 (s : State) : s.big .R0 = s.R0 := rfl
@[simp] theorem big_R1 (s : State) : s.big .R1 = s.R1 := rfl
@[simp] theorem big_R2 (s : State) : s.big .R2 = s.R2 := rfl

@[simp] theorem big_withTurns (s : State) (ts : List Turn) (X : BigReg) : (s.withTurns ts).big X = s.big X := by
  cases X <;> rfl

@[simp] theorem x_withTurns (s : State) (ts : List Turn) (X : BigReg) : (s.withTurns ts).x X = s.x X := by
  rw [State.x, big_withTurns, State.x]

@[simp] theorem status_withTurns (s : State) (ts : List Turn) : (s.withTurns ts).status = s.status := rfl

@[simp] theorem withTurns_withTurns (s : State) (ts us : List Turn) : (s.withTurns ts).withTurns us = s.withTurns us := rfl

@[simp] theorem withTurns_self (s : State) : s.withTurns s.turns = s := rfl

@[simp] theorem big_readTurn (s : State) (addr : Addr) (X : BigReg) : (readTurn s addr).big X = s.big X := by
  cases X <;> rfl

@[simp] theorem status_readTurn (s : State) (addr : Addr) : (readTurn s addr).status = s.status := rfl

/-! The signed reading `x` and the two words depend on nothing but what they name. -/

theorem x_congr {s t : State} {X : BigReg} (h : s.big X = t.big X) : s.x X = t.x X := by
  rw [State.x, State.x, h]

theorem status_congr {s t : State} (h1 : s.BUSY = t.BUSY) (h2 : s.DONE = t.DONE) (h3 : s.ERR = t.ERR) :
    s.status = t.status := by
  rw [State.status, State.status, h1, h2, h3]

theorem info_congr {s t : State} (h : s.L = t.L) : s.info = t.info := by
  rw [State.info, State.info, h]

end Sys2Proof.Machine
end

