-- ==== Sys2Proof/Laws/Ops.lean ====
section
/-! SUPPORT. What the shared operations do: the host port, the two completions, the two finishes. Proofs cite these and do
not unfold the operations. -/

namespace Sys2Proof.Machine

@[simp] theorem zeroLimbs_length (L : Nat) : (zeroLimbs L).length = L := List.length_replicate

@[simp] theorem sextLimbs_zeroLimbs (L : Nat) : sextLimbs (zeroLimbs L) = 0 := sextLimbs_replicate_zero L

/-! The host's reads. -/

@[simp] theorem hostRead_cmd (s : State) : hostRead s 0x000#11 = s.CMD := rfl

@[simp] theorem hostRead_status (s : State) : hostRead s 0x001#11 = s.status := rfl

@[simp] theorem hostRead_info (s : State) : hostRead s 0x002#11 = s.info := rfl

theorem info_toNat {s : State} (h : s.L ≤ 256) : s.info.toNat = s.L := by
  have h1 : s.L % 2 ^ 16 = s.L := Nat.mod_eq_of_lt (by omega)
  simp only [State.info, BitVec.toNat_append, BitVec.toNat_ofNat, h1]
  simp

theorem windowReg_eq_some {w : Nat} {X : BigReg} : windowReg w = some X ↔ w = X.number + 1 := by
  constructor
  · intro h
    unfold windowReg at h
    split at h <;> simp at h <;> subst h <;> rfl
  · rintro rfl
    cases X <;> rfl

theorem windowReg_eq_none {w : Nat} : windowReg w = none ↔ w = 0 ∨ 7 ≤ w := by
  unfold windowReg
  split
  all_goals first | (simp; done) | skip
  next h1 h2 h3 h4 h5 h6 =>
    simp only [true_iff]
    by_contra h
    have : w = 1 ∨ w = 2 ∨ w = 3 ∨ w = 4 ∨ w = 5 ∨ w = 6 := by omega
    rcases this with h | h | h | h | h | h <;> contradiction

theorem number_lt (X : BigReg) : X.number < 6 := by cases X <;> decide

theorem isOperand_iff (X : BigReg) : X.isOperand = true ↔ X.number < 3 := by cases X <;> decide

theorem number_injective {X Y : BigReg} (h : X.number = Y.number) : X = Y := by
  cases X <;> cases Y <;> first | rfl | exact absurd h (by decide)

/-- Which word of which window an address in a window is. -/
theorem window_of_addr {addr : Addr} {X : BigReg} {k : Nat} (h : addr.toNat = 0x100 * (X.number + 1) + k) (hk : k < 256) :
    windowReg (windowOf addr) = some X ∧ limbOf addr = k := by
  rw [windowReg_eq_some]
  unfold windowOf limbOf
  omega

theorem addr_ne_of_window {addr : Addr} (h : 0x100 ≤ addr.toNat) : addr ≠ 0x000#11 ∧ addr ≠ 0x001#11 ∧ addr ≠ 0x002#11 := by
  refine ⟨?_, ?_, ?_⟩ <;> rintro rfl <;> simp at h

/-- Reading a limb. -/
theorem hostRead_limb {s : State} {addr : Addr} {X : BigReg} {k : Nat} (h : addr.toNat = 0x100 * (X.number + 1) + k)
    (hk : k < s.L) (hL : s.L ≤ 256) : hostRead s addr = (s.big X).getD k 0#32 := by
  obtain ⟨hw, hl⟩ := window_of_addr h (by omega)
  obtain ⟨h0, h1, h2⟩ := addr_ne_of_window (addr := addr) (by omega)
  simp [hostRead, h0, h1, h2, hw, hl, hk]

/-- Reading a word where no limb and no control word is. -/
theorem hostRead_reserved {s : State} {addr : Addr} (h3 : 3 ≤ addr.toNat)
    (h : addr.toNat < 0x100 ∨ 0x700 ≤ addr.toNat ∨ s.L ≤ addr.toNat % 0x100) : hostRead s addr = 0#32 := by
  have h0 : addr ≠ 0x000#11 := by rintro rfl; simp at h3
  have h1 : addr ≠ 0x001#11 := by rintro rfl; simp at h3
  have h2 : addr ≠ 0x002#11 := by rintro rfl; simp at h3
  simp only [hostRead, h0, h1, h2, if_false]
  split
  · next X hX =>
    have hX' := windowReg_eq_some.mp hX
    have := number_lt X
    unfold windowOf at hX'
    unfold limbOf
    rw [if_neg (by omega)]
  · rfl

/-- What the host reads depends on these fields and no other. -/
theorem hostRead_congr {s t : State} {addr : Addr} (hL : s.L = t.L) (hc : s.CMD = t.CMD)
    (hs : addr = 0x001#11 → s.status = t.status)
    (hb : ∀ X, 0x100 * (X.number + 1) ≤ addr.toNat → addr.toNat < 0x100 * (X.number + 2) → s.big X = t.big X) :
    hostRead s addr = hostRead t addr := by
  unfold hostRead
  split
  · exact hc
  split
  · next h => exact hs h
  split
  · exact info_congr hL
  split
  · next X hX =>
    have hX' := windowReg_eq_some.mp hX
    unfold windowOf at hX'
    rw [hb X (by omega) (by omega), hL]
  · rfl

/-! The host's writes. -/

theorem hostWrite_busy {s : State} (h : s.BUSY = true) (addr : Addr) (v : Word) : hostWrite s addr v = s := by
  simp [hostWrite, h]

theorem hostWrite_cmd {s : State} (h : s.BUSY = false) (v : Word) : hostWrite s 0x000#11 v = accept s v := by
  simp [hostWrite, h]

theorem hostWrite_limb {s : State} {addr : Addr} {X : BigReg} {k : Nat} (v : Word) (hb : s.BUSY = false)
    (h : addr.toNat = 0x100 * (X.number + 1) + k) (hk : k < s.L) (hL : s.L ≤ 256) (ho : X.isOperand = true) :
    hostWrite s addr v = s.setBig X ((s.big X).set k v) := by
  obtain ⟨hw, hl⟩ := window_of_addr h (by omega)
  obtain ⟨h0, -, -⟩ := addr_ne_of_window (addr := addr) (by omega)
  simp [hostWrite, hb, h0, hw, hl, hk, ho]

theorem hostWrite_elsewhere {s : State} {addr : Addr} (v : Word) (h0 : addr ≠ 0x000#11)
    (h : addr.toNat < 0x100 ∨ 0x400 ≤ addr.toNat ∨ s.L ≤ addr.toNat % 0x100) : hostWrite s addr v = s := by
  unfold hostWrite
  split
  · rfl
  split
  · next X hX =>
    have hX' := windowReg_eq_some.mp hX
    have hx : ¬(X.isOperand = true ∧ limbOf addr < s.L) := by
      rw [isOperand_iff X]
      unfold limbOf
      unfold windowOf at hX'
      omega
    rw [if_neg (by simpa using hx)]
  · rfl

/-- All a host write can do: nothing, an acceptance, or one limb of an operand register. -/
theorem hostWrite_cases (s : State) (addr : Addr) (v : Word) :
    hostWrite s addr v = s ∨
    (s.BUSY = false ∧ addr = 0x000#11 ∧ hostWrite s addr v = accept s v) ∨
    ∃ X k, s.BUSY = false ∧ X.isOperand = true ∧ k < s.L ∧ k < 256 ∧ addr.toNat = 0x100 * (X.number + 1) + k ∧
      hostWrite s addr v = s.setBig X ((s.big X).set k v) := by
  unfold hostWrite
  split
  · exact .inl rfl
  next hb =>
  have hb : s.BUSY = false := by simpa using hb
  split
  · next h0 => exact .inr (.inl ⟨hb, h0, rfl⟩)
  split
  · next X hX =>
    have hX' := windowReg_eq_some.mp hX
    split
    · next h =>
      simp only [Bool.and_eq_true, decide_eq_true_eq] at h
      refine .inr (.inr ⟨X, limbOf addr, hb, h.1, h.2, ?_, ?_, rfl⟩)
      · unfold limbOf; omega
      · unfold windowOf at hX'; unfold limbOf; omega
    · exact .inl rfl
  · exact .inl rfl

/-! The completions. -/

@[simp] theorem raise_zeroResults (s : State) (e : Err) : (raise s e).zeroResults := by
  simp [State.zeroResults, State.x]

@[simp] theorem accept_zeroResults (s : State) (v : Word) : (accept s v).zeroResults := by
  simp [State.zeroResults, State.x]

/-- The results of a normal completion read back as the integers completed with. -/
theorem complete_x {s : State} {r0 r1 r2 : Int} (hL : 1 ≤ s.L) (h0 : Config.fits s.L r0) (h1 : Config.fits s.L r1)
    (h2 : Config.fits s.L r2) :
    (complete s r0 r1 r2).x .R0 = r0 ∧ (complete s r0 r1 r2).x .R1 = r1 ∧ (complete s r0 r1 r2).x .R2 = r2 := by
  simp only [State.x, big_R0, big_R1, big_R2, complete_R0, complete_R1, complete_R2]
  exact ⟨sextLimbs_encLimbs hL h0, sextLimbs_encLimbs hL h1, sextLimbs_encLimbs hL h2⟩

/-- A state is ended by a completion of `s`: it differs from `s` in the results, STATUS and SEQ alone, it is idle and done,
and its results are 0 if there is an error. -/
structure EndsFrom (s t : State) : Prop where
  L : t.L = s.L
  A : t.A = s.A
  B : t.B = s.B
  C : t.C = s.C
  CMD : t.CMD = s.CMD
  turns : t.turns = s.turns
  reads : t.reads = s.reads
  busy : t.BUSY = false
  done : t.DONE = true
  seq : t.SEQ = .IDLE
  len : t.R0.length = s.L ∧ t.R1.length = s.L ∧ t.R2.length = s.L
  error : t.ERR ≠ .noError → t.zeroResults

theorem complete_endsFrom (s : State) (r0 r1 r2 : Int) : EndsFrom s (complete s r0 r1 r2) := by
  constructor <;> simp

theorem raise_endsFrom (s : State) (e : Err) : EndsFrom s (raise s e) := by
  constructor <;> simp

/-- The EGCD finish ends by one completion (41_egcd.md R94). -/
theorem egcdFinish_cases (s : State) :
    (Config.fits s.L s.RA ∧ Config.fits s.L s.SA ∧ Config.fits s.L s.TA ∧ egcdFinish s = complete s s.RA s.SA s.TA) ∨
    (¬(Config.fits s.L s.RA ∧ Config.fits s.L s.SA ∧ Config.fits s.L s.TA) ∧ egcdFinish s = raise s .range) := by
  unfold egcdFinish
  split
  · next h => exact .inl ⟨h.1, h.2.1, h.2.2, rfl⟩
  · next h => exact .inr ⟨h, rfl⟩

/-- The inverse finish ends by one completion (43_modinv.md R117). -/
theorem invFinish_cases (s : State) :
    (s.RA.natAbs ≠ 1 ∧ invFinish s = raise s .contractViolation) ∨
    (s.RA.natAbs = 1 ∧ Config.fits s.L (normalizeOnce s.SA s.MD) ∧
      invFinish s = complete s (normalizeOnce s.SA s.MD) 0 0) ∨
    (s.RA.natAbs = 1 ∧ ¬Config.fits s.L (normalizeOnce s.SA s.MD) ∧ invFinish s = raise s .range) := by
  unfold invFinish
  by_cases h : s.RA.natAbs = 1
  · by_cases hf : Config.fits s.L (normalizeOnce s.SA s.MD)
    · exact .inr (.inl ⟨h, hf, by rw [if_neg (not_not.mpr h), if_pos hf]⟩)
    · exact .inr (.inr ⟨h, hf, by rw [if_neg (not_not.mpr h), if_neg hf]⟩)
  · exact .inl ⟨h, if_pos h⟩

/-- `finishWith` ends by one completion (40_command_lifecycle.md R81). -/
theorem finishWith_normal (s : State) (r0 r1 r2 : Int) : finishWith s (Result.normal r0 r1 r2) = complete s r0 r1 r2 := rfl

theorem finishWith_error (s : State) {e : Err} (h : e ≠ .noError) : finishWith s (Result.error e) = raise s e := by
  have h' : (Result.error e).err ≠ .noError := h
  unfold finishWith
  rw [if_neg h']
  rfl

end Sys2Proof.Machine
end

