-- ==== Sys2Proof/Laws/Engine.lean ====
section
/-! SUPPORT. What the engine's steps and the two loops do. -/

namespace Sys2Proof.Machine

/-- `t` differs from `s` in SEQ and working registers alone (40_command_lifecycle.md R77, R78). -/
structure WorksFrom (s t : State) : Prop where
  L : t.L = s.L
  A : t.A = s.A
  B : t.B = s.B
  C : t.C = s.C
  R0 : t.R0 = s.R0
  R1 : t.R1 = s.R1
  R2 : t.R2 = s.R2
  CMD : t.CMD = s.CMD
  busy : t.BUSY = s.BUSY
  done : t.DONE = s.DONE
  err : t.ERR = s.ERR
  turns : t.turns = s.turns
  reads : t.reads = s.reads

theorem WorksFrom.refl (s : State) : WorksFrom s s := by constructor <;> rfl

theorem WorksFrom.big {s t : State} (h : WorksFrom s t) (X : BigReg) : t.big X = s.big X := by
  cases X <;> simp [h.A, h.B, h.C, h.R0, h.R1, h.R2]

theorem WorksFrom.x {s t : State} (h : WorksFrom s t) (X : BigReg) : t.x X = s.x X := x_congr (h.big X)

theorem WorksFrom.trans {s t u : State} (h : WorksFrom s t) (g : WorksFrom t u) : WorksFrom s u := by
  constructor <;> simp only [g.L, g.A, g.B, g.C, g.R0, g.R1, g.R2, g.CMD, g.busy, g.done, g.err, g.turns, g.reads,
    h.L, h.A, h.B, h.C, h.R0, h.R1, h.R2, h.CMD, h.busy, h.done, h.err, h.turns, h.reads]

theorem WorksFrom.endsFrom {s t u : State} (h : WorksFrom s t) (g : EndsFrom t u) : EndsFrom s u where
  L := g.L.trans h.L
  A := g.A.trans h.A
  B := g.B.trans h.B
  C := g.C.trans h.C
  CMD := g.CMD.trans h.CMD
  turns := g.turns.trans h.turns
  reads := g.reads.trans h.reads
  busy := g.busy
  done := g.done
  seq := g.seq
  len := by rw [← h.L]; exact g.len
  error := g.error

/-! The Euclidean loop. -/

/-- The six variables of the loop, in the working registers. -/
def State.euclidVars (s : State) : EuclidVars := ⟨s.RA, s.RB, s.SA, s.SB, s.TA, s.TB⟩

@[simp] theorem euclidPass_euclidVars (s : State) : (euclidPass s).euclidVars = euclidBody s.euclidVars := rfl

/-- The state with the six variables of the loop replaced. -/
def State.withVars (s : State) (v : EuclidVars) : State :=
  { s with RA := v.r0, RB := v.r1, SA := v.s0, SB := v.s1, TA := v.t0, TB := v.t1 }

@[simp] theorem withVars_self (s : State) : s.withVars s.euclidVars = s := rfl

@[simp] theorem withVars_withVars (s : State) (v w : EuclidVars) : (s.withVars v).withVars w = s.withVars w := rfl

@[simp] theorem euclidVars_withVars (s : State) (v : EuclidVars) : (s.withVars v).euclidVars = v := rfl

theorem withVars_worksFrom (s : State) (v : EuclidVars) : WorksFrom s (s.withVars v) := by constructor <;> rfl

theorem euclidPass_eq_withVars (s : State) : euclidPass s = s.withVars (euclidBody s.euclidVars) := rfl

theorem egcdIter_pass {s : State} (h : s.RB ≠ 0) : egcdIter s = euclidPass s := if_neg h

theorem egcdIter_finish {s : State} (h : s.RB = 0) :
    egcdIter s = match s.FIN with | .FIN_EGCD => egcdFinish s | .FIN_INV => invFinish s := if_pos h

theorem egcdFinish_endsFrom (s : State) : EndsFrom s (egcdFinish s) := by
  rcases egcdFinish_cases s with ⟨-, -, -, h⟩ | ⟨-, h⟩ <;> rw [h]
  · exact complete_endsFrom ..
  · exact raise_endsFrom ..

theorem invFinish_endsFrom (s : State) : EndsFrom s (invFinish s) := by
  rcases invFinish_cases s with ⟨-, h⟩ | ⟨-, -, h⟩ | ⟨-, -, h⟩ <;> rw [h]
  · exact raise_endsFrom ..
  · exact complete_endsFrom ..
  · exact raise_endsFrom ..

/-- With RB = 0 an iteration step completes the command. -/
theorem egcdIter_endsFrom {s : State} (h : s.RB = 0) : EndsFrom s (egcdIter s) := by
  rw [egcdIter_finish h]
  split
  · exact egcdFinish_endsFrom s
  · exact invFinish_endsFrom s

theorem euclidBody_r1 (v : EuclidVars) : (euclidBody v).r1 = fmod v.r0 v.r1 := sub_fdiv_mul _ _

/-- A pass shrinks the second remainder (41_egcd.md R95). -/
theorem natAbs_euclidBody_r1_lt {v : EuclidVars} (h : v.r1 ≠ 0) : (euclidBody v).r1.natAbs < v.r1.natAbs := by
  rw [euclidBody_r1]; exact natAbs_fmod_lt h

theorem euclidWhile_zero {n : Nat} {v : EuclidVars} (h : v.r1 = 0) : euclidWhile n v = v := by
  cases n with
  | zero => rfl
  | succ n => exact if_pos h

theorem euclidWhile_succ {n : Nat} {v : EuclidVars} (h : v.r1 ≠ 0) : euclidWhile (n + 1) v = euclidWhile n (euclidBody v) :=
  if_neg h

/-- Passes beyond the end of the loop change nothing: any bound from `|r1|` on gives the same. -/
theorem euclidWhile_fuel {n : Nat} {v : EuclidVars} (h : v.r1.natAbs ≤ n) :
    euclidWhile n v = euclidWhile v.r1.natAbs v := by
  induction n using Nat.strong_induction_on generalizing v with
  | _ n ih =>
    by_cases h0 : v.r1 = 0
    · rw [euclidWhile_zero h0, euclidWhile_zero h0]
    · have hlt := natAbs_euclidBody_r1_lt h0
      obtain ⟨k, hk⟩ : ∃ k, v.r1.natAbs = k + 1 := ⟨v.r1.natAbs - 1, by omega⟩
      obtain ⟨m, rfl⟩ : ∃ m, n = m + 1 := ⟨n - 1, by omega⟩
      rw [hk, euclidWhile_succ h0, euclidWhile_succ h0, ih m (by omega) (by omega)]
      rcases Nat.lt_or_ge k (m + 1) with hkm | hkm
      · exact (ih k hkm (by omega)).symm
      · omega

/-- The rule for the loop: what holds at the start and is kept by a pass with a nonzero divisor holds at the exit, where the
second remainder is 0. -/
theorem euclidWhile_exit {P : EuclidVars → Prop} (hstep : ∀ u, P u → u.r1 ≠ 0 → P (euclidBody u)) (n : Nat) :
    ∀ v : EuclidVars, v.r1.natAbs ≤ n → P v → P (euclidWhile n v) ∧ (euclidWhile n v).r1 = 0 := by
  induction n with
  | zero =>
    intro v hn hv
    exact ⟨hv, show v.r1 = 0 by simpa using hn⟩
  | succ n ih =>
    intro v hn hv
    by_cases h0 : v.r1 = 0
    · rw [euclidWhile_zero h0]; exact ⟨hv, h0⟩
    · rw [euclidWhile_succ h0]
      have := natAbs_euclidBody_r1_lt h0
      exact ih _ (by omega) (hstep v hv h0)

/-- The rule for `EGCD_CORE`. -/
theorem egcdCore_exit {P : EuclidVars → Prop} {a b : Int} (h0 : P ⟨a, b, 1, 0, 0, 1⟩)
    (hstep : ∀ u, P u → u.r1 ≠ 0 → P (euclidBody u)) : P (egcdCore a b) ∧ (egcdCore a b).r1 = 0 :=
  euclidWhile_exit hstep _ _ (le_refl _) h0

theorem egcdSteps_stop {s : State} (h : s.SEQ ≠ .EGCD_ITER) (n : Nat) : egcdSteps n s = s := by
  cases n with
  | zero => rfl
  | succ n => exact if_neg h

theorem egcdSteps_eq (n : Nat) : ∀ s : State, s.SEQ = .EGCD_ITER → s.RB.natAbs ≤ n →
    egcdSteps (n + 1) s = egcdIter (s.withVars (euclidWhile n s.euclidVars)) := by
  induction n with
  | zero =>
    intro s hs hn
    have h0 : s.RB = 0 := by simpa using hn
    rw [egcdSteps, if_pos hs]
    rfl
  | succ n ih =>
    intro s hs hn
    rw [egcdSteps, if_pos hs]
    by_cases h0 : s.RB = 0
    · have hend := egcdIter_endsFrom h0
      rw [euclidWhile_zero (v := s.euclidVars) h0, withVars_self]
      exact egcdSteps_stop (by rw [hend.seq]; decide) _
    · have hlt : (euclidPass s).RB.natAbs < s.RB.natAbs := natAbs_euclidBody_r1_lt (v := s.euclidVars) h0
      rw [egcdIter_pass h0, ih (euclidPass s) hs (by omega), euclidWhile_succ (v := s.euclidVars) h0, euclidPass_euclidVars,
        euclidPass_eq_withVars, withVars_withVars]

/-- The rest of a command in the Euclidean loop: the loop as a function, then the finish. -/
theorem egcdRest_eq {s : State} (h : s.SEQ = .EGCD_ITER) :
    egcdRest s = egcdIter (s.withVars (euclidWhile s.RB.natAbs s.euclidVars)) :=
  egcdSteps_eq _ s h (le_refl _)

theorem egcdRest_exit_RB (s : State) : (s.withVars (euclidWhile s.RB.natAbs s.euclidVars)).RB = 0 :=
  (euclidWhile_exit (P := fun _ => True) (fun _ _ _ => trivial) _ s.euclidVars (le_refl _) trivial).2

theorem egcdRest_endsFrom {s : State} (h : s.SEQ = .EGCD_ITER) : EndsFrom s (egcdRest s) := by
  rw [egcdRest_eq h]
  exact (withVars_worksFrom s _).endsFrom (egcdIter_endsFrom (egcdRest_exit_RB s))

theorem egcdRest_stop {s : State} (h : s.SEQ ≠ .EGCD_ITER) : egcdRest s = s := egcdSteps_stop h _

/-! The square-and-multiply loop. -/

/-- One pass of the square-and-multiply loop. -/
def modexpPass (s : State) : State :=
  { s with I := s.I - 1, ACC := squareMultiply s.ACC s.BS s.EX s.MD (s.I - 1) }

theorem modexpPass_worksFrom (s : State) : WorksFrom s (modexpPass s) := by constructor <;> rfl

theorem modexpIter_pass {s : State} (h : s.I ≠ 0) : modexpIter s = modexpPass s := if_neg h

theorem modexpIter_finish {s : State} (h : s.I = 0) : modexpIter s = complete s s.ACC 0 0 := if_pos h

theorem modexpSteps_stop {s : State} (h : s.SEQ ≠ .MODEXP_ITER) (n : Nat) : modexpSteps n s = s := by
  cases n with
  | zero => rfl
  | succ n => exact if_neg h

/-- The state at the end of the loop's passes. -/
def modexpDone (s : State) : State :=
  { s with I := 0, ACC := modexpFor s.BS s.EX s.MD s.I s.ACC }

theorem modexpDone_worksFrom (s : State) : WorksFrom s (modexpDone s) := by constructor <;> rfl

theorem modexpSteps_eq (n : Nat) : ∀ s : State, s.SEQ = .MODEXP_ITER → s.I = n →
    modexpSteps (n + 1) s = complete (modexpDone s) (modexpDone s).ACC 0 0 := by
  induction n with
  | zero =>
    intro s hs hn
    rw [modexpSteps, if_pos hs, modexpIter_finish hn]
    have hd : modexpDone s = s := by
      unfold modexpDone
      rw [hn, modexpFor, ← hn]
    rw [hd]; rfl
  | succ n ih =>
    intro s hs hn
    have hI : (modexpPass s).I = n := by show s.I - 1 = n; omega
    have hd : modexpDone (modexpPass s) = modexpDone s := by
      show ({ modexpPass s with
        I := 0
        ACC := modexpFor s.BS s.EX s.MD (s.I - 1) (squareMultiply s.ACC s.BS s.EX s.MD (s.I - 1)) } : State) = _
      unfold modexpDone
      rw [hn, modexpFor]; rfl
    rw [modexpSteps, if_pos hs, modexpIter_pass (by omega), ih (modexpPass s) hs hI, hd]

/-- The rest of a command in the square-and-multiply loop: the loop as a function, then normal completion. -/
theorem modexpRest_eq {s : State} (h : s.SEQ = .MODEXP_ITER) :
    modexpRest s = complete (modexpDone s) (modexpFor s.BS s.EX s.MD s.I s.ACC) 0 0 :=
  modexpSteps_eq _ s h rfl

theorem modexpRest_endsFrom {s : State} (h : s.SEQ = .MODEXP_ITER) : EndsFrom s (modexpRest s) := by
  rw [modexpRest_eq h]
  exact (modexpDone_worksFrom s).endsFrom (complete_endsFrom ..)

theorem modexpRest_stop {s : State} (h : s.SEQ ≠ .MODEXP_ITER) : modexpRest s = s := modexpSteps_stop h _

/-! The START steps: each ends the command with an error, or loads working registers and enters a loop. -/

theorem egcdStart_cases (s : State) :
    (s.x .A = 0 ∧ s.x .B = 0 ∧ egcdStart s = raise s .invalidInput) ∨
    (¬(s.x .A = 0 ∧ s.x .B = 0) ∧ WorksFrom s (egcdStart s) ∧ (egcdStart s).SEQ = .EGCD_ITER ∧
      (egcdStart s).FIN = .FIN_EGCD ∧ (egcdStart s).euclidVars = ⟨s.x .A, s.x .B, 1, 0, 0, 1⟩) := by
  by_cases h : s.x .A = 0 ∧ s.x .B = 0
  · exact .inl ⟨h.1, h.2, if_pos h⟩
  · refine .inr ⟨h, ?_⟩
    unfold egcdStart
    rw [if_neg h]
    exact ⟨by constructor <;> rfl, rfl, rfl, rfl⟩

theorem invLoad_worksFrom (s : State) (a m : Int) : WorksFrom s (invLoad s a m) := by constructor <;> rfl

theorem modinvStart_cases (s : State) :
    (s.x .B ≤ 0 ∧ modinvStart s = raise s .invalidInput) ∨
    (0 < s.x .B ∧ modinvStart s = invLoad s (s.x .A) (s.x .B)) := by
  by_cases h : s.x .B ≤ 0
  · exact .inl ⟨h, if_pos h⟩
  · exact .inr ⟨not_le.mp h, if_neg h⟩

theorem fits_of_pos {L : Nat} {z : Int} (h : 0 < z) : Config.fits L z ↔ z ≤ Config.maxInt L := by
  have := (fits_zero (L := L)).1
  exact ⟨fun hz => hz.2, fun hz => ⟨by omega, hz⟩⟩

theorem privkeyStart_cases (s : State) :
    (totient (s.x .B) (s.x .C) ≤ 0 ∧ privkeyStart s = raise s .invalidInput) ∨
    (Config.maxInt s.L < totient (s.x .B) (s.x .C) ∧ 0 < totient (s.x .B) (s.x .C) ∧ privkeyStart s = raise s .range) ∨
    (0 < totient (s.x .B) (s.x .C) ∧ Config.fits s.L (totient (s.x .B) (s.x .C)) ∧
      privkeyStart s = invLoad s (s.x .A) (totient (s.x .B) (s.x .C))) := by
  unfold privkeyStart
  by_cases h : totient (s.x .B) (s.x .C) ≤ 0
  · exact .inl ⟨h, if_pos h⟩
  · rw [if_neg h]
    by_cases hf : Config.fits s.L (totient (s.x .B) (s.x .C))
    · exact .inr (.inr ⟨not_le.mp h, hf, if_pos hf⟩)
    · refine .inr (.inl ⟨?_, not_le.mp h, if_neg hf⟩)
      rw [fits_of_pos (not_le.mp h)] at hf
      exact not_le.mp hf

theorem modexpStart_cases (s : State) :
    ((s.x .B < 0 ∨ s.x .C ≤ 0) ∧ modexpStart s = raise s .invalidInput) ∨
    (0 ≤ s.x .B ∧ 0 < s.x .C ∧ WorksFrom s (modexpStart s) ∧ (modexpStart s).SEQ = .MODEXP_ITER ∧
      (modexpStart s).MD = s.x .C ∧ (modexpStart s).EX = s.x .B ∧ (modexpStart s).BS = fmod (s.x .A) (s.x .C) ∧
      (modexpStart s).ACC = 1 ∧ (modexpStart s).I = bitlen (s.x .B)) := by
  by_cases h : s.x .B < 0 ∨ s.x .C ≤ 0
  · exact .inl ⟨h, if_pos h⟩
  · have h' : 0 ≤ s.x .B ∧ 0 < s.x .C := by omega
    refine .inr ⟨h'.1, h'.2, ?_⟩
    unfold modexpStart
    rw [if_neg h]
    exact ⟨by constructor <;> rfl, rfl, rfl, rfl, rfl, rfl, rfl⟩

/-- A START step ends the command, or goes on in a loop (40_command_lifecycle.md R77). -/
theorem startOf_cases (i : Instr) (s : State) :
    EndsFrom s (startOf i s) ∨
    (WorksFrom s (startOf i s) ∧ ((startOf i s).SEQ = .MODEXP_ITER ∨ (startOf i s).SEQ = .EGCD_ITER)) := by
  cases i with
  | egcd =>
    rcases egcdStart_cases s with ⟨-, -, h⟩ | ⟨-, h, hs, -⟩
    · exact .inl (by simp only [startOf, h]; exact raise_endsFrom ..)
    · exact .inr ⟨h, .inr hs⟩
  | modexp =>
    rcases modexpStart_cases s with ⟨-, h⟩ | ⟨-, -, h, hs, -⟩
    · exact .inl (by simp only [startOf, h]; exact raise_endsFrom ..)
    · exact .inr ⟨h, .inl hs⟩
  | modinv =>
    rcases modinvStart_cases s with ⟨-, h⟩ | ⟨-, h⟩
    · exact .inl (by simp only [startOf, h]; exact raise_endsFrom ..)
    · exact .inr (by simp only [startOf, h]; exact ⟨invLoad_worksFrom .., .inr rfl⟩)
  | privkey =>
    rcases privkeyStart_cases s with ⟨-, h⟩ | ⟨-, -, h⟩ | ⟨-, -, h⟩
    · exact .inl (by simp only [startOf, h]; exact raise_endsFrom ..)
    · exact .inl (by simp only [startOf, h]; exact raise_endsFrom ..)
    · exact .inr (by simp only [startOf, h]; exact ⟨invLoad_worksFrom .., .inr rfl⟩)

theorem startStep_cases (s : State) :
    EndsFrom s (startStep s) ∨
    (WorksFrom s (startStep s) ∧ ((startStep s).SEQ = .MODEXP_ITER ∨ (startStep s).SEQ = .EGCD_ITER)) := by
  unfold startStep
  split
  · exact startOf_cases _ s
  · exact .inl (raise_endsFrom ..)

/-! The engine's turn, at both grains. -/

theorem engineStep_idle {s : State} (h : s.BUSY = false) : engineStep s = s := by simp [engineStep, h]

theorem engineStep_start {s : State} (h : s.BUSY = true) (hs : s.SEQ = .START) : engineStep s = startStep s := by
  simp [engineStep, h, hs]

theorem engineStep_modexp {s : State} (h : s.BUSY = true) (hs : s.SEQ = .MODEXP_ITER) : engineStep s = modexpIter s := by
  simp [engineStep, h, hs]

theorem engineStep_egcd {s : State} (h : s.BUSY = true) (hs : s.SEQ = .EGCD_ITER) : engineStep s = egcdIter s := by
  simp [engineStep, h, hs]

/-- All one engine step can do: nothing while none is enabled, complete the command, or go on with it. -/
theorem engineStep_cases (s : State) :
    (engineStep s = s ∧ (s.BUSY = false ∨ s.SEQ = .IDLE)) ∨
    (s.BUSY = true ∧ EndsFrom s (engineStep s)) ∨
    (s.BUSY = true ∧ WorksFrom s (engineStep s) ∧
      ((engineStep s).SEQ = .MODEXP_ITER ∨ (engineStep s).SEQ = .EGCD_ITER)) := by
  cases hb : s.BUSY with
  | false => exact .inl ⟨engineStep_idle hb, .inl rfl⟩
  | true =>
    cases hs : s.SEQ with
    | IDLE => exact .inl ⟨by simp [engineStep, hb, hs], .inr rfl⟩
    | START =>
      rw [engineStep_start hb hs]
      rcases startStep_cases s with h | h
      · exact .inr (.inl ⟨rfl, h⟩)
      · exact .inr (.inr ⟨rfl, h⟩)
    | MODEXP_ITER =>
      rw [engineStep_modexp hb hs]
      by_cases h : s.I = 0
      · rw [modexpIter_finish h]; exact .inr (.inl ⟨rfl, complete_endsFrom ..⟩)
      · rw [modexpIter_pass h]; exact .inr (.inr ⟨rfl, modexpPass_worksFrom s, .inl hs⟩)
    | EGCD_ITER =>
      rw [engineStep_egcd hb hs]
      by_cases h : s.RB = 0
      · exact .inr (.inl ⟨rfl, egcdIter_endsFrom h⟩)
      · rw [egcdIter_pass h]
        exact .inr (.inr ⟨rfl, by rw [euclidPass_eq_withVars]; exact withVars_worksFrom .., .inr hs⟩)

/-- `exec` answers the state the two loops leave. -/
theorem exec_eq (i : Instr) (s : State) : exec i s = .next (modexpRest (egcdRest (startOf i s))) := by
  cases i with
  | modexp =>
    show Host.Outcome.next (modexpRest (modexpStart s)) = .next (modexpRest (egcdRest (modexpStart s)))
    rcases modexpStart_cases s with ⟨-, h⟩ | ⟨-, -, -, hs, -⟩
    · rw [h, egcdRest_stop (by simp)]
    · rw [egcdRest_stop (by rw [hs]; decide)]
  | egcd =>
    show Host.Outcome.next (egcdRest (egcdStart s)) = .next (modexpRest (egcdRest (egcdStart s)))
    rcases egcdStart_cases s with ⟨-, -, h⟩ | ⟨-, -, hs, -⟩
    · rw [h, egcdRest_stop (by simp), modexpRest_stop (by simp)]
    · rw [modexpRest_stop (by rw [(egcdRest_endsFrom hs).seq]; decide)]
  | modinv =>
    show Host.Outcome.next (egcdRest (modinvStart s)) = .next (modexpRest (egcdRest (modinvStart s)))
    rcases modinvStart_cases s with ⟨-, h⟩ | ⟨-, h⟩
    · rw [h, egcdRest_stop (by simp), modexpRest_stop (by simp)]
    · rw [h, modexpRest_stop (by rw [(egcdRest_endsFrom (s := invLoad s _ _) rfl).seq]; decide)]
  | privkey =>
    show Host.Outcome.next (egcdRest (privkeyStart s)) = .next (modexpRest (egcdRest (privkeyStart s)))
    rcases privkeyStart_cases s with ⟨-, h⟩ | ⟨-, -, h⟩ | ⟨-, -, h⟩
    · rw [h, egcdRest_stop (by simp), modexpRest_stop (by simp)]
    · rw [h, egcdRest_stop (by simp), modexpRest_stop (by simp)]
    · rw [h, modexpRest_stop (by rw [(egcdRest_endsFrom (s := invLoad s _ _) rfl).seq]; decide)]

/-- Every command ends by one completion. -/
theorem exec_endsFrom (i : Instr) (s : State) : ∃ t, exec i s = .next t ∧ EndsFrom s t := by
  refine ⟨_, exec_eq i s, ?_⟩
  rcases startOf_cases i s with h | ⟨h, hm | he⟩
  · rw [egcdRest_stop (by rw [h.seq]; decide), modexpRest_stop (by rw [h.seq]; decide)]; exact h
  · rw [egcdRest_stop (by rw [hm]; decide)]; exact h.endsFrom (modexpRest_endsFrom hm)
  · have hE := egcdRest_endsFrom he
    rw [modexpRest_stop (by rw [hE.seq]; decide)]; exact h.endsFrom hE

/-- All the merged engine step can do. -/
theorem commandStep_cases (s : State) :
    ∃ t, commandStep s = .next t ∧
      ((t = s ∧ (s.BUSY = false ∨ s.SEQ = .IDLE)) ∨ (s.BUSY = true ∧ s.SEQ ≠ .IDLE ∧ EndsFrom s t)) := by
  unfold commandStep
  cases hb : s.BUSY with
  | false => exact ⟨s, rfl, .inl ⟨rfl, .inl rfl⟩⟩
  | true =>
    cases hs : s.SEQ with
    | IDLE => exact ⟨s, rfl, .inl ⟨rfl, .inr rfl⟩⟩
    | START =>
      cases hd : decode s.CMD with
      | error e => exact ⟨_, rfl, .inr ⟨rfl, by simp, raise_endsFrom s .illegalCmd⟩⟩
      | ok i =>
        obtain ⟨t, ht, hE⟩ := exec_endsFrom i s
        exact ⟨t, ht, .inr ⟨rfl, by simp, hE⟩⟩
    | MODEXP_ITER => exact ⟨_, rfl, .inr ⟨rfl, by simp, modexpRest_endsFrom hs⟩⟩
    | EGCD_ITER => exact ⟨_, rfl, .inr ⟨rfl, by simp, egcdRest_endsFrom hs⟩⟩

end Sys2Proof.Machine
end

