-- ==== Sys2Proof/Laws/Euclid.lean ====
section
/-! SUPPORT. The Euclidean loop as a function of integers: the Bezout identities, the gcd, the sign, and the size of the
coefficients (spec/41_egcd.md R93, R95, R96). -/

namespace Sys2Proof.Machine

/-- The invariant of R93, at the exit. -/
theorem egcdCore_bezout (a b : Int) : a * (egcdCore a b).s0 + b * (egcdCore a b).t0 = (egcdCore a b).r0 := by
  have h := egcdCore_exit (a := a) (b := b)
    (P := fun v => a * v.s0 + b * v.t0 = v.r0 ∧ a * v.s1 + b * v.t1 = v.r1) (by simp) ?_
  · exact h.1.1
  · rintro u ⟨h0, h1⟩ -
    refine ⟨h1, ?_⟩
    simp only [euclidBody]
    rw [← h0, ← h1]; ring_nf

theorem gcd_fmod (a b : Int) : Int.gcd b (fmod a b) = Int.gcd a b := by
  rw [fmod, Int.gcd_comm, Int.gcd_sub_mul_left_left]

/-- The loop keeps the gcd (R90 (i)). -/
theorem egcdCore_gcd (a b : Int) : (egcdCore a b).r0.natAbs = Int.gcd a b := by
  have h := egcdCore_exit (a := a) (b := b) (P := fun v => Int.gcd v.r0 v.r1 = Int.gcd a b) rfl ?_
  · have := h.1
    rw [h.2, Int.gcd_zero_right] at this
    exact this
  · intro u hu _
    show Int.gcd u.r1 (euclidBody u).r1 = _
    rw [euclidBody_r1, gcd_fmod, hu]

/-- The loop started at `b = 0` runs no pass (R95). -/
theorem egcdCore_zero (a : Int) : egcdCore a 0 = ⟨a, 0, 1, 0, 0, 1⟩ := rfl

theorem fdiv_neg_neg (n d : Int) : fdiv (-n) (-d) = fdiv n d := Int.neg_fdiv_neg n d

/-- Negating both remainders negates them in every pass and leaves the coefficients alone. -/
theorem euclidWhile_neg (n : Nat) (v : EuclidVars) :
    euclidWhile n { v with r0 := -v.r0, r1 := -v.r1 } =
      { euclidWhile n v with r0 := -(euclidWhile n v).r0, r1 := -(euclidWhile n v).r1 } := by
  induction n generalizing v with
  | zero => rfl
  | succ n ih =>
    by_cases h : v.r1 = 0
    · rw [euclidWhile_zero h, euclidWhile_zero (by simpa using h)]
    · rw [euclidWhile_succ h, euclidWhile_succ (by simpa using h), ← ih]
      congr 1
      simp only [euclidBody, fdiv_neg_neg, EuclidVars.mk.injEq, and_true, true_and]
      ring

theorem egcdCore_neg (a b : Int) :
    egcdCore (-a) (-b) = { egcdCore a b with r0 := -(egcdCore a b).r0, r1 := -(egcdCore a b).r1 } := by
  have h := euclidWhile_neg b.natAbs ⟨a, b, 1, 0, 0, 1⟩
  unfold egcdCore
  rw [Int.natAbs_neg]
  exact h

/-- What every pass keeps once the first is over, for a positive second operand: the remainders are not negative and fall;
the coefficients of `a` alternate in sign; `|s1|*r0 + |s0|*r1 = b`; and either `s0` is still 0 and `r0` still `b`, or an
earlier remainder above `r0`, congruent to `r1`, bounds `s0`. -/
structure EuclidBound (b : Int) (v : EuclidVars) : Prop where
  pos : 0 < v.r0
  nonneg : 0 ≤ v.r1
  falls : v.r1 < v.r0
  alternate : (0 ≤ v.s1 ∧ v.s0 ≤ 0) ∨ (v.s1 ≤ 0 ∧ 0 ≤ v.s0)
  balance : |v.s1| * v.r0 + |v.s0| * v.r1 = b
  bound : (v.s0 = 0 ∧ v.r0 = b) ∨ ∃ R k, R = v.r0 * k + v.r1 ∧ v.r0 < R ∧ |v.s0| * R ≤ b

theorem EuclidBound.body {b : Int} {v : EuclidVars} (h : EuclidBound b v) (h0 : v.r1 ≠ 0) :
    EuclidBound b (euclidBody v) := by
  have hp : 0 < v.r1 := lt_of_le_of_ne h.nonneg (Ne.symm h0)
  have hq : v.r1 * fdiv v.r0 v.r1 + fmod v.r0 v.r1 = v.r0 := fdiv_mul_add_fmod _ _
  have hf0 := fmod_nonneg (n := v.r0) hp
  have hf1 := fmod_lt (n := v.r0) hp
  have hq1 : 1 ≤ fdiv v.r0 v.r1 := by
    by_contra hc
    have : fdiv v.r0 v.r1 ≤ 0 := by omega
    have := mul_nonpos_of_nonneg_of_nonpos hp.le this
    have := h.falls
    omega
  have hr1 := euclidBody_r1 v
  have hs : |v.s0 - fdiv v.r0 v.r1 * v.s1| = |v.s0| + fdiv v.r0 v.r1 * |v.s1| := by
    rcases h.alternate with ⟨h1, h2⟩ | ⟨h1, h2⟩
    · have := mul_nonneg (by omega : 0 ≤ fdiv v.r0 v.r1) h1
      rw [abs_of_nonneg h1, abs_of_nonpos h2, abs_of_nonpos (by omega)]; ring
    · have := mul_nonpos_of_nonneg_of_nonpos (by omega : 0 ≤ fdiv v.r0 v.r1) h1
      rw [abs_of_nonpos h1, abs_of_nonneg h2, abs_of_nonneg (by omega)]; ring
  have hbal : |v.s0 - fdiv v.r0 v.r1 * v.s1| * v.r1 + |v.s1| * fmod v.r0 v.r1 = b := by
    rw [hs, ← h.balance]
    have : fmod v.r0 v.r1 = v.r0 - v.r1 * fdiv v.r0 v.r1 := rfl
    rw [this]; ring
  refine ⟨hp, by rw [hr1]; exact hf0, by rw [hr1]; exact hf1, ?_, by rw [hr1]; exact hbal, ?_⟩
  · show (0 ≤ v.s0 - fdiv v.r0 v.r1 * v.s1 ∧ v.s1 ≤ 0) ∨ (v.s0 - fdiv v.r0 v.r1 * v.s1 ≤ 0 ∧ 0 ≤ v.s1)
    rcases h.alternate with ⟨h1, h2⟩ | ⟨h1, h2⟩
    · have := mul_nonneg (by omega : 0 ≤ fdiv v.r0 v.r1) h1
      exact .inr ⟨by omega, h1⟩
    · have := mul_nonpos_of_nonneg_of_nonpos (by omega : 0 ≤ fdiv v.r0 v.r1) h1
      exact .inl ⟨by omega, h1⟩
  · refine .inr ⟨v.r0, fdiv v.r0 v.r1, ?_, h.falls, ?_⟩
    · show v.r0 = v.r1 * fdiv v.r0 v.r1 + (euclidBody v).r1
      rw [hr1, hq]
    · show |v.s1| * v.r0 ≤ b
      have := mul_nonneg (abs_nonneg v.s0) h.nonneg
      have := h.balance
      omega

/-- The first pass, for a positive second operand. -/
theorem EuclidBound.first {a b : Int} (hb : 0 < b) : EuclidBound b (euclidBody ⟨a, b, 1, 0, 0, 1⟩) := by
  have hr1 := euclidBody_r1 ⟨a, b, 1, 0, 0, 1⟩
  refine ⟨hb, by rw [hr1]; exact fmod_nonneg hb, by rw [hr1]; exact fmod_lt hb, .inl ?_, ?_, .inl ⟨rfl, rfl⟩⟩ <;>
    simp [euclidBody]

/-- For a positive second operand the exit keeps what the passes keep. -/
theorem egcdCore_bound {a b : Int} (hb : 0 < b) : EuclidBound b (egcdCore a b) ∧ (egcdCore a b).r1 = 0 := by
  obtain ⟨n, hn⟩ : ∃ n, b.natAbs = n + 1 := ⟨b.natAbs - 1, by omega⟩
  have hlt := natAbs_euclidBody_r1_lt (v := ⟨a, b, 1, 0, 0, 1⟩) (show b ≠ 0 by omega)
  have he : egcdCore a b = euclidWhile n (euclidBody ⟨a, b, 1, 0, 0, 1⟩) := by
    unfold egcdCore
    rw [hn, euclidWhile_succ (show b ≠ 0 by omega)]
  rw [he]
  refine euclidWhile_exit (fun u hu h0 => hu.body h0) n _ ?_ (EuclidBound.first hb)
  have : (euclidBody ⟨a, b, 1, 0, 0, 1⟩).r1.natAbs < b.natAbs := hlt
  omega

/-- The size of the coefficients for a positive second operand: the result is `(b, 0, 1)`, or twice `|x|*g` is at most `b`. -/
theorem egcdCore_size_pos {a b : Int} (hb : 0 < b) :
    0 < (egcdCore a b).r0 ∧
    (((egcdCore a b).s0 = 0 ∧ (egcdCore a b).r0 = b) ∨ 2 * (|(egcdCore a b).s0| * (egcdCore a b).r0) ≤ b) := by
  obtain ⟨h, h1⟩ := egcdCore_bound (a := a) hb
  refine ⟨h.pos, ?_⟩
  rcases h.bound with hz | ⟨R, k, hR, hlt, hle⟩
  · exact .inl hz
  · right
    rw [h1, add_zero] at hR
    have hk : 2 ≤ k := by
      by_contra hc
      have : k ≤ 1 := by omega
      have := mul_le_mul_of_nonneg_left this h.pos.le
      omega
    have hge : 2 * (egcdCore a b).r0 ≤ R := by
      have := mul_le_mul_of_nonneg_left hk h.pos.le
      omega
    have := mul_le_mul_of_nonneg_left hge (abs_nonneg (egcdCore a b).s0)
    linarith

/-- `g` has the sign of `b` (R95). -/
theorem egcdCore_sign_pos {a b : Int} (hb : 0 < b) : (egcdCore a b).r0 = Int.gcd a b := by
  have h1 := (egcdCore_size_pos (a := a) hb).1
  have h2 := egcdCore_gcd a b
  omega

theorem egcdCore_sign_neg {a b : Int} (hb : b < 0) : (egcdCore a b).r0 = -(Int.gcd a b : Int) := by
  have h := egcdCore_neg (-a) (-b)
  rw [neg_neg, neg_neg] at h
  rw [h, egcdCore_sign_pos (by omega)]
  simp

/-- The coefficient `x` is smaller than `b` in magnitude, and `y` at most `1 + |a|/2` (R96). -/
theorem egcdCore_size {a b : Int} (hb : b ≠ 0) :
    |(egcdCore a b).s0| < |b| ∧ 2 * |(egcdCore a b).t0| ≤ 2 + |a| := by
  wlog hpos : 0 < b generalizing a b with hw
  · have hneg : 0 < -b := by omega
    have h := hw (a := -a) (b := -b) (by omega) hneg
    rw [egcdCore_neg, abs_neg, abs_neg] at h
    exact h
  · obtain ⟨hr, hcase⟩ := egcdCore_size_pos (a := a) hpos
    have hbz := egcdCore_bezout a b
    have hgb : (egcdCore a b).r0 ≤ b := by
      have h1 := egcdCore_gcd a b
      have h2 : Int.gcd a b ≤ b.natAbs := Int.gcd_le_natAbs_right _ (by omega)
      omega
    rw [abs_of_pos hpos]
    generalize (egcdCore a b).s0 = x at *
    generalize (egcdCore a b).t0 = y at *
    generalize (egcdCore a b).r0 = g at *
    rcases hcase with ⟨hx, hg⟩ | hle
    · subst hx; subst hg
      have hy : y = 1 := by
        have : g * (y - 1) = 0 := by linarith
        rcases mul_eq_zero.mp this with h | h <;> omega
      subst hy
      have := abs_nonneg a
      simp; omega
    · have hxg : |x| ≤ |x| * g := le_mul_of_one_le_right (abs_nonneg x) (by omega)
      refine ⟨by have := abs_nonneg x; omega, ?_⟩
      have h2 : b * |y| ≤ g + |a| * |x| := by
        have : b * y = g - a * x := by linarith
        calc b * |y| = |b * y| := by rw [abs_mul, abs_of_pos hpos]
          _ = |g - a * x| := by rw [this]
          _ ≤ |g| + |a * x| := abs_sub _ _
          _ = g + |a| * |x| := by rw [abs_of_pos hr, abs_mul]
      have h3 : 2 * (|a| * |x|) ≤ |a| * b := by
        have := mul_le_mul_of_nonneg_left (by omega : 2 * |x| ≤ b) (abs_nonneg a)
        linarith
      have h4 : b * (2 * |y|) ≤ b * (2 + |a|) := by
        nlinarith
      exact le_of_mul_le_mul_left h4 hpos

/-- No result of EGCD is out of range: the Range guard of R94 is unreachable. -/
theorem egcdCore_fits {L : Nat} {a b : Int} (hL : 1 ≤ L) (ha : Config.fits L a) (hb : Config.fits L b) :
    Config.fits L (egcdCore a b).r0 ∧ Config.fits L (egcdCore a b).s0 ∧ Config.fits L (egcdCore a b).t0 := by
  have hp : 4 ≤ (2 ^ (Config.width L - 1) : Nat) := by
    calc 4 = 2 ^ 2 := rfl
      _ ≤ 2 ^ (Config.width L - 1) := Nat.pow_le_pow_right (by norm_num) (by unfold Config.width; omega)
  by_cases h0 : b = 0
  · subst h0
    rw [egcdCore_zero]
    dsimp only
    unfold Config.fits Config.minInt Config.maxInt at *
    generalize (2 ^ (Config.width L - 1) : Nat) = P at *
    omega
  · have hs := egcdCore_size (a := a) h0
    have hg : (egcdCore a b).r0.natAbs ≤ b.natAbs := by
      rw [egcdCore_gcd]; exact Int.gcd_le_natAbs_right _ h0
    have hneg : b < 0 → (egcdCore a b).r0 ≤ 0 := fun h => by rw [egcdCore_sign_neg h]; omega
    rw [abs_eq_max_neg, abs_eq_max_neg, abs_eq_max_neg, abs_eq_max_neg] at hs
    unfold Config.fits Config.minInt Config.maxInt at *
    generalize (2 ^ (Config.width L - 1) : Nat) = P at *
    generalize (egcdCore a b).r0 = g at *
    generalize (egcdCore a b).s0 = x at *
    generalize (egcdCore a b).t0 = y at *
    omega

end Sys2Proof.Machine
end

