-- ==== Sys2Proof/Laws/PerInstr.lean ====
section
/-! SUPPORT. Laws made per command: the two fields of its command word (spec/30_encoding.md R60, R62). -/

namespace Sys2Proof.Laws.WordFields

/-- The command word has bits 31:4 zero and the command's code in bits 3:0, and the code is one of 1 to 4. -/
def Statement (i : Instr) : Prop :=
  i.wf = true ∧ zeroField (encode i) = 0 ∧ opField (encode i) = opcode i ∧ (encode i).toNat = (opcode i).toNat ∧
    1 ≤ (opcode i).toNat ∧ (opcode i).toNat ≤ 4

theorem egcd : Statement .egcd := by unfold Statement; decide

theorem modexp : Statement .modexp := by unfold Statement; decide

theorem modinv : Statement .modinv := by unfold Statement; decide

theorem privkey : Statement .privkey := by unfold Statement; decide

end Sys2Proof.Laws.WordFields
end

