-- ==== Sys2Proof/Laws/Power.lean ====
section
/-! SUPPORT. The square-and-multiply loop as a function of integers (spec/42_modexp.md R103, R106). -/

namespace Sys2Proof.Machine

theorem bit_eq (e : Int) (i : Nat) : bit e i = e / ((2 ^ i : Nat) : Int) % 2 := by
  rw [bit, fdiv_eq_ediv (by positivity), fmod_eq_emod (by norm_num)]

/-- Halving once more drops one bit. -/
theorem div_two_pow_succ (e : Int) (i : Nat) :
    e / ((2 ^ i : Nat) : Int) = 2 * (e / ((2 ^ (i + 1) : Nat) : Int)) + bit e i := by
  rw [bit_eq, pow_succ, Nat.cast_mul, ← Int.ediv_ediv_of_nonneg (by positivity)]
  have := Int.emod_add_mul_ediv (e / ((2 ^ i : Nat) : Int)) 2
  push_cast at *
  omega

theorem div_two_pow_bitlen {e : Int} (he : 0 ≤ e) : e / ((2 ^ bitlen e : Nat) : Int) = 0 := by
  rcases he.eq_or_lt with rfl | hpos
  · simp
  · exact Int.ediv_eq_zero_of_lt he (bitlen_bounds hpos).2

theorem squareMultiply_range {acc bs ex md : Int} {i : Nat} (h : 0 < md) :
    0 ≤ squareMultiply acc bs ex md i ∧ squareMultiply acc bs ex md i < md := by
  unfold squareMultiply
  split <;> exact ⟨fmod_nonneg h, fmod_lt h⟩

theorem fmod_modEq {n d : Int} (hd : 0 < d) : fmod n d ≡ n [ZMOD d] := by
  rw [fmod_eq_emod hd.le]; exact Int.mod_modEq n d

/-- One pass takes the power of the exponent's top bits to the power of one bit more (R106 (b)). -/
theorem squareMultiply_modEq {acc bs ex md : Int} {i : Nat} (hm : 0 < md) (he : 0 ≤ ex)
    (h : acc ≡ bs ^ (ex / ((2 ^ (i + 1) : Nat) : Int)).toNat [ZMOD md]) :
    squareMultiply acc bs ex md i ≡ bs ^ (ex / ((2 ^ i : Nat) : Int)).toNat [ZMOD md] := by
  have hd := div_two_pow_succ ex i
  have hq : 0 ≤ ex / ((2 ^ (i + 1) : Nat) : Int) := Int.ediv_nonneg he (by positivity)
  have hb : bit ex i = 0 ∨ bit ex i = 1 := by rw [bit_eq]; omega
  have hsq : fmod (acc * acc) md ≡ bs ^ (2 * (ex / ((2 ^ (i + 1) : Nat) : Int)).toNat) [ZMOD md] := by
    rw [two_mul, pow_add]
    exact (fmod_modEq hm).trans (h.mul h)
  unfold squareMultiply
  rcases hb with hb | hb
  · rw [if_neg (by rw [hb]; norm_num)]
    rw [hb] at hd
    rwa [show (ex / ((2 ^ i : Nat) : Int)).toNat = 2 * (ex / ((2 ^ (i + 1) : Nat) : Int)).toNat by omega]
  · rw [if_pos hb]
    rw [hb] at hd
    rw [show (ex / ((2 ^ i : Nat) : Int)).toNat = 2 * (ex / ((2 ^ (i + 1) : Nat) : Int)).toNat + 1 by omega, pow_succ]
    exact (fmod_modEq hm).trans (hsq.mul_right bs)

theorem modexpFor_modEq {bs ex md : Int} (hm : 0 < md) (he : 0 ≤ ex) (n : Nat) :
    ∀ acc : Int, acc ≡ bs ^ (ex / ((2 ^ n : Nat) : Int)).toNat [ZMOD md] →
      modexpFor bs ex md n acc ≡ bs ^ ex.toNat [ZMOD md] := by
  induction n with
  | zero => intro acc h; simpa [modexpFor] using h
  | succ n ih => intro acc h; exact ih _ (squareMultiply_modEq hm he h)

theorem modexpFor_range {bs ex md : Int} (hm : 0 < md) (n : Nat) :
    ∀ acc : Int, (0 ≤ acc ∧ acc < md) ∨ 0 < n →
      0 ≤ modexpFor bs ex md n acc ∧ modexpFor bs ex md n acc < md := by
  induction n with
  | zero => intro acc h; simpa [modexpFor] using h
  | succ n ih => intro acc _; exact ih _ (.inl (squareMultiply_range hm))

/-- The value of the loop (R106): 1 for exponent 0, else the power of the reduced base, reduced. -/
theorem modexpFor_value {bs ex md : Int} (hm : 0 < md) (he : 0 ≤ ex) :
    modexpFor bs ex md (bitlen ex) 1 = if ex = 0 then 1 else fmod (bs ^ ex.toNat) md := by
  split
  · next h => subst h; rfl
  · next h =>
    have hpos : 0 < bitlen ex := by simp [bitlen, h]
    have h1 := modexpFor_modEq (bs := bs) hm he (bitlen ex) 1 (by rw [div_two_pow_bitlen he, Int.toNat_zero, pow_zero])
    have h2 := modexpFor_range (bs := bs) (ex := ex) hm (bitlen ex) 1 (.inr hpos)
    rw [fmod_eq_emod hm.le, ← h1, Int.emod_eq_of_lt h2.1 h2.2]

/-- The value depends on the base only through its residue (R106 (c)). -/
theorem fmod_pow_fmod {b m : Int} (hm : 0 < m) (n : Nat) : fmod (fmod b m ^ n) m = fmod (b ^ n) m := by
  rw [fmod_eq_emod hm.le, fmod_eq_emod (n := b ^ n) hm.le]
  exact (fmod_modEq hm).pow n

end Sys2Proof.Machine
end

