-- ==== Sys2Proof/Laws/Step.lean ====
section
/-! SUPPORT. One step of the machine: what each turn does, and all a step can do. -/

namespace Sys2Proof.Machine

theorem step_nil {s : State} (h : s.turns = []) : step s = .next (engineStep s) := by
  simp [step, nextTurn, h]

theorem step_cons {s : State} {u : Turn} {ts : List Turn} (h : s.turns = u :: ts) :
    step s = takeTurn u (s.withTurns ts) := by
  simp [step, nextTurn, h]

/-- A run of one step more begins with a step. -/
theorem run_next {s t : State} (n : Nat) (h : step s = .next t) :
    Host.Core.run Sys2Proof.core (n + 1) s = Host.Core.run Sys2Proof.core n t := by
  have h' : Sys2Proof.core.step s = .next t := h
  show Host.Core.run Sys2Proof.core (n + 1) (s : Sys2Proof.core.State) = _
  simp only [Host.Core.run, h']

theorem busWord_ok {byteAddr bytes : Nat} {addr : Addr} :
    busWord byteAddr bytes = .ok addr ↔ bytes = 4 ∧ byteAddr = 4 * addr.toNat := by
  have hlt := addr.isLt
  unfold busWord
  constructor
  · intro h
    split at h
    · next hc =>
      split at h
      · next hl =>
        simp only [Except.ok.injEq] at h
        subst h
        simp only [BitVec.toNat_ofNat]
        omega
      · simp at h
    · simp at h
  · rintro ⟨rfl, rfl⟩
    rw [if_pos (by omega), if_pos (by omega)]
    congr 1
    apply BitVec.eq_of_toNat_eq
    simp

theorem busWord_error {byteAddr bytes : Nat} {r : Refusal} (h : busWord byteAddr bytes = .error r) :
    (r = .notOneWord ∧ ¬(bytes = 4 ∧ byteAddr % 4 = 0)) ∨
    (r = .outsideRegisterSpace ∧ bytes = 4 ∧ byteAddr % 4 = 0 ∧ 2048 ≤ byteAddr / 4) := by
  unfold busWord at h
  split at h
  · next hc =>
    split at h
    · simp at h
    · next hl => simp only [Except.error.injEq] at h; exact .inr ⟨h.symm, hc.1, hc.2, not_lt.mp hl⟩
  · next hc => simp only [Except.error.injEq] at h; exact .inl ⟨h.symm, hc⟩

theorem reachesBlock_bus {byteAddr bytes : Nat} :
    (∃ addr, busWord byteAddr bytes = .ok addr) ↔ bytes = 4 ∧ byteAddr % 4 = 0 ∧ byteAddr / 4 < 2048 := by
  unfold busWord
  split
  · next h => split <;> simp_all
  · next h => simp_all

/-- All a turn that answers a next state can do. -/
theorem takeTurn_cases {u : Turn} {s t : State} (h : takeTurn u s = .next t) :
    (∃ addr, t = readTurn s addr ∧ u ≠ .reset ∧ (∀ a v, ¬u.writesWord a v)) ∨
    (∃ addr v, u.writesWord addr v ∧ t = hostWrite s addr v) ∨
    (u = .wait ∧ t = waitTurn s) ∨
    (u = .reset ∧ t = resetInput s) ∨
    (u = .engine ∧ t = engineStep s) ∨
    (u = .command ∧ commandStep s = .next t) := by
  cases u with
  | read addr =>
    simp only [takeTurn, Host.Outcome.next.injEq] at h
    exact .inl ⟨addr, h.symm, by simp, by simp [Turn.writesWord]⟩
  | write addr v =>
    simp only [takeTurn, Host.Outcome.next.injEq] at h
    exact .inr (.inl ⟨addr, v, .inl rfl, h.symm⟩)
  | busRead a n =>
    simp only [takeTurn] at h
    split at h
    · next addr _ =>
      simp only [Host.Outcome.next.injEq] at h
      exact .inl ⟨addr, h.symm, by simp, by simp [Turn.writesWord]⟩
    · simp at h
  | busWrite a n v =>
    simp only [takeTurn] at h
    split at h
    · next addr ha =>
      simp only [Host.Outcome.next.injEq] at h
      exact .inr (.inl ⟨addr, v, .inr ⟨a, n, rfl, ha⟩, h.symm⟩)
    · simp at h
  | wait =>
    simp only [takeTurn, Host.Outcome.next.injEq] at h
    exact .inr (.inr (.inl ⟨rfl, h.symm⟩))
  | reset =>
    simp only [takeTurn, Host.Outcome.next.injEq] at h
    exact .inr (.inr (.inr (.inl ⟨rfl, h.symm⟩)))
  | engine =>
    simp only [takeTurn, Host.Outcome.next.injEq] at h
    exact .inr (.inr (.inr (.inr (.inl ⟨rfl, h.symm⟩))))
  | command => exact .inr (.inr (.inr (.inr (.inr ⟨rfl, h⟩))))

/-- All a step that answers a next state can do: the engine's step of an exhausted list, or the turn at its head. -/
theorem step_cases {s t : State} (h : step s = .next t) :
    (s.turns = [] ∧ t = engineStep s) ∨
    ∃ u ts, s.turns = u :: ts ∧ takeTurn u (s.withTurns ts) = .next t := by
  cases hs : s.turns with
  | nil => rw [step_nil hs] at h; exact .inl ⟨rfl, by simpa using h.symm⟩
  | cons u ts => rw [step_cons hs] at h; exact .inr ⟨u, ts, rfl, h⟩

theorem waitTurn_busy {s : State} (h : s.BUSY = true) :
    waitTurn s = (readTurn s 0x001).withTurns (.engine :: .wait :: s.turns) := by
  simp [waitTurn, h]

theorem waitTurn_idle {s : State} (h : s.BUSY = false) : waitTurn s = readTurn s 0x001 := by
  simp [waitTurn, h]

end Sys2Proof.Machine
end

