-- ==== Sys2Proof/Laws/Runs.lean ====
section
/-! SUPPORT. Runs of single engine steps: the two loops step by step, and that an engine step neither reads nor writes the
fields of the agents around it. -/

namespace Sys2Proof.Machine

/-- The Euclidean loop, one engine step at a time: `n` passes and the finishing step (41_egcd.md R95). -/
theorem engineSteps_egcd (k : Nat) : ∀ s : State, s.BUSY = true → s.SEQ = .EGCD_ITER → s.RB.natAbs ≤ k →
    ∃ n, n ≤ k ∧ (s.RB = 0 → n = 0) ∧ (∀ m, m < n + 1 → (engineSteps m s).BUSY = true) ∧ engineSteps (n + 1) s = egcdRest s := by
  induction k with
  | zero =>
    intro s hb hs hk
    have h0 : s.RB = 0 := by simpa using hk
    refine ⟨0, le_refl _, fun _ => rfl, ?_, ?_⟩
    · intro m hm; obtain rfl : m = 0 := by omega
      exact hb
    · show engineStep s = _
      rw [engineStep_egcd hb hs, egcdRest_eq hs, h0]; rfl
  | succ k ih =>
    intro s hb hs hk
    by_cases h0 : s.RB = 0
    · refine ⟨0, by omega, fun _ => rfl, ?_, ?_⟩
      · intro m hm; obtain rfl : m = 0 := by omega
        exact hb
      · show engineStep s = _
        rw [engineStep_egcd hb hs, egcdRest_eq hs, h0]; rfl
    · have hlt : (euclidPass s).RB.natAbs < s.RB.natAbs := natAbs_euclidBody_r1_lt (v := s.euclidVars) h0
      obtain ⟨n, h1, -, h3, h4⟩ := ih (euclidPass s) hb hs (by omega)
      have he : engineStep s = euclidPass s := by rw [engineStep_egcd hb hs, egcdIter_pass h0]
      refine ⟨n + 1, by omega, fun h => absurd h h0, ?_, ?_⟩
      · intro m hm
        cases m with
        | zero => exact hb
        | succ m => show (engineSteps m (engineStep s)).BUSY = true; rw [he]; exact h3 m (by omega)
      · show engineSteps (n + 1) (engineStep s) = _
        rw [he, h4, egcdRest_eq hs, egcdRest_eq (s := euclidPass s) hs]
        obtain ⟨j, hj⟩ : ∃ j, s.RB.natAbs = j + 1 := ⟨s.RB.natAbs - 1, by omega⟩
        have hw : euclidWhile s.RB.natAbs s.euclidVars = euclidWhile (euclidPass s).RB.natAbs (euclidPass s).euclidVars := by
          rw [hj, euclidWhile_succ (v := s.euclidVars) h0]
          exact euclidWhile_fuel (v := euclidBody s.euclidVars) (by show (euclidPass s).RB.natAbs ≤ j; omega)
        rw [hw]; rfl

/-- The square-and-multiply loop, one engine step at a time: `I` passes and the completing step (42_modexp.md R105). -/
theorem engineSteps_modexp (k : Nat) : ∀ s : State, s.BUSY = true → s.SEQ = .MODEXP_ITER → s.I = k →
    (∀ m, m < k + 1 → (engineSteps m s).BUSY = true) ∧ engineSteps (k + 1) s = modexpRest s := by
  induction k with
  | zero =>
    intro s hb hs hk
    refine ⟨?_, ?_⟩
    · intro m hm; obtain rfl : m = 0 := by omega
      exact hb
    · show engineStep s = _
      rw [engineStep_modexp hb hs]; unfold modexpRest; rw [hk]
      simp [modexpSteps, hs]
  | succ k ih =>
    intro s hb hs hk
    have he : engineStep s = modexpPass s := by rw [engineStep_modexp hb hs, modexpIter_pass (by omega)]
    have hI : (modexpPass s).I = k := by show s.I - 1 = k; omega
    obtain ⟨h3, h4⟩ := ih (modexpPass s) hb hs hI
    refine ⟨?_, ?_⟩
    · intro m hm
      cases m with
      | zero => exact hb
      | succ m => show (engineSteps m (engineStep s)).BUSY = true; rw [he]; exact h3 m (by omega)
    · show engineSteps (k + 1) (engineStep s) = _
      rw [he, h4]; unfold modexpRest; rw [hI, hk]
      conv_rhs => rw [modexpSteps, if_pos hs, modexpIter_pass (by omega)]

/-- The state with other turns to come and other words read. -/
def State.withHost (s : State) (ts : List Turn) (rs : List Word) : State := { s with turns := ts, reads := rs }

/-- An engine step does the same whatever the agents do next and have read. -/
theorem engineStep_withHost (s : State) (ts : List Turn) (rs : List Word) : engineStep (s.withHost ts rs) = (engineStep s).withHost ts rs := by
  unfold engineStep
  have hb : (s.withHost ts rs).BUSY = s.BUSY := rfl
  have hs : (s.withHost ts rs).SEQ = s.SEQ := rfl
  rw [hb, hs]
  split
  · cases s.SEQ with
    | IDLE => rfl
    | START =>
      show startStep _ = (startStep _).withHost ts rs
      unfold startStep
      have : (s.withHost ts rs).CMD = s.CMD := rfl
      rw [this]
      cases decode s.CMD with
      | error e => rfl
      | ok i =>
        cases i <;> simp only [startOf, egcdStart, modexpStart, modinvStart, privkeyStart]
        all_goals
          have hx : ∀ X, (s.withHost ts rs).x X = s.x X := fun X => by cases X <;> rfl
          have hl : (s.withHost ts rs).L = s.L := rfl
          simp only [hx, hl]
          repeat' split
          all_goals rfl
    | MODEXP_ITER =>
      show modexpIter _ = (modexpIter _).withHost ts rs
      unfold modexpIter
      show (if s.I = 0 then _ else _) = State.withHost (if s.I = 0 then _ else _) _ _
      split <;> rfl
    | EGCD_ITER =>
      show egcdIter _ = (egcdIter _).withHost ts rs
      unfold egcdIter
      have e1 : egcdFinish (s.withHost ts rs) = (egcdFinish s).withHost ts rs := by
        unfold egcdFinish
        show (if Config.fits s.L s.RA ∧ Config.fits s.L s.SA ∧ Config.fits s.L s.TA then _ else _) = _
        split <;> rfl
      have e2 : invFinish (s.withHost ts rs) = (invFinish s).withHost ts rs := by
        unfold invFinish
        show (if s.RA.natAbs ≠ 1 then _ else if Config.fits s.L (normalizeOnce s.SA s.MD) then _ else _) = _
        split
        · rfl
        · split <;> rfl
      rw [e1, e2]
      show (if s.RB = 0 then match s.FIN with | .FIN_EGCD => _ | .FIN_INV => _ else _) = _
      split
      · cases s.FIN <;> rfl
      · rfl
  · rfl

end Sys2Proof.Machine
end

