-- ==== Sys2Proof/Tests/Slice0.lean ====
section
/-! SUPPORT. Tests: the words and the values of spec/95_test_vectors.md, the ill-formed terms the checks refuse, and for
each statement with hypotheses a concrete state that meets them. -/

namespace Sys2Proof.Tests

open Sys2Proof Sys2Proof.Machine

/-- An idle build of two limbs with these operands. -/
def st (a b c : Int) : State := { State.resetOf 2 with A := encLimbs 2 a, B := encLimbs 2 b, C := encLimbs 2 c }

/-- The same, with this command word accepted. -/
def started (w : Word) (a b c : Int) : State := accept (st a b c) w

/-- The outcome of a step is a state with this status and these results. -/
def ends (o : Host.Outcome State Fault Refusal) (status : Nat) (r0 r1 r2 : Int) : Bool :=
  match o with
  | .next t => decide (t.status.toNat = status ∧ t.x .R0 = r0 ∧ t.x .R1 = r1 ∧ t.x .R2 = r2)
  | .fault _ => false
  | .refused _ => false

theorem shape_st (a b c : Int) : (st a b c).shape := ⟨rfl, fun X => by cases X <;> rfl⟩

theorem shape_started (w : Word) (a b c : Int) : (started w a b c).shape := ⟨rfl, fun X => by cases X <;> rfl⟩

theorem shape_turns {s : State} (h : s.shape) (ts : List Turn) : (s.withTurns ts).shape :=
  ⟨h.1, fun X => by have := h.2 X; cases X <;> exact this⟩

/-! Well-formedness: `SET` needs an operand register and a value that fits (30_encoding.md R67); `L` is 1 to 256
(00_scope.md R4). -/

theorem test_wf_set : (Line.set .A (2 ^ 63 - 1)).wf 2 = true ∧ (Line.set .C (-2 ^ 63)).wf 2 = true := by decide

theorem test_wf_refuses_set_result : (Line.set .R0 0).wf 2 = false := by decide

theorem test_wf_refuses_set_above_max : (Line.set .A (2 ^ 63)).wf 2 = false := by decide

theorem test_wf_refuses_set_below_min : (Line.set .B (-2 ^ 63 - 1)).wf 2 = false := by decide

theorem test_legal_limbs : Config.legalLimbs 1 = true ∧ Config.legalLimbs 256 = true := by decide

theorem test_illegal_limbs : Config.legalLimbs 0 = false ∧ Config.legalLimbs 257 = false := by decide

theorem test_wf_every_command : Instr.egcd.wf = true ∧ Instr.privkey.wf = true := by decide

/-! Decoding: the words of 30_encoding.md R62 bit by bit, and illegal words (R64). -/

theorem test_decode_egcd : decode 0b00000000000000000000000000000001 = .ok .egcd := by decide

theorem test_decode_modexp : decode 0b00000000000000000000000000000010 = .ok .modexp := by decide

theorem test_decode_modinv : decode 0b00000000000000000000000000000011 = .ok .modinv := by decide

theorem test_decode_privkey : decode 0b00000000000000000000000000000100 = .ok .privkey := by decide

theorem test_decode_illegal_op : decode 0b00000000000000000000000000000101 = .error (.opcode 5) := by decide

theorem test_decode_reserved_bit : decode 0b00000000000000000000000000010010 = .error .reservedBits := by decide

theorem test_decode_top_bit : decode 0b10000000000000000000000000000001 = .error .reservedBits := by decide

theorem test_table_words :
    decodeTableWord 32 1 = some .egcd ∧ decodeTableWord 32 2 = some .modexp ∧ decodeTableWord 32 3 = some .modinv ∧
    decodeTableWord 32 4 = some .privkey ∧ decodeTableWord 32 0 = none ∧ decodeTableWord 32 0x12 = none := by decide

/-- Source: 20_memory.md R43, the limbs of -367 at L = 2. -/
theorem test_limbs_of_negative : encLimbs 2 (-367) = [0xFFFFFE91, 0xFFFFFFFF] ∧ sextLimbs [0xFFFFFE91#32, 0xFFFFFFFF#32] = -367 := by
  decide

/-! The commands. Source: 95_test_vectors.md sections 1.1, 2 and 3, 41_egcd.md R97, 42_modexp.md R107, 43_modinv.md R124
and R123. -/

theorem test_egcd_negative_divisor : ends (exec .egcd (st 240 (-46) 0)) 0x02 (-2) 9 47 = true := by decide

theorem test_egcd_extremes : ends (exec .egcd (st (-2 ^ 63) (2 ^ 63 - 1) 0)) 0x02 1 (-1) (-1) = true := by decide

theorem test_modexp_negative_base : ends (exec .modexp (st (-2) 3 7)) 0x02 6 0 0 = true := by decide

theorem test_modinv_one_addition : ends (exec .modinv (st 17 3120 0)) 0x02 2753 0 0 = true := by decide

theorem test_modinv_not_coprime : ends (exec .modinv (st 4 6 0)) 0x22 0 0 0 = true := by decide

theorem test_privkey_source_example : ends (exec .privkey (st 17 61 53)) 0x02 2753 0 0 = true := by decide

theorem test_privkey_range : ends (exec .privkey (st 3 4294967297 2147483649)) 0x42 0 0 0 = true := by decide

/-- Source: 42_modexp.md R107, exponent 0 with modulus 1. -/
theorem test_modexp_zero_exponent : ends (exec .modexp (st 7 0 1)) 0x02 1 0 0 = true := by decide

/-! The port. Source: 20_memory.md R45, R46 and program P6 of 95_test_vectors.md. -/

theorem test_write_one_limb : hostRead (hostWrite (st (-3) 7 0) 0x100 10) 0x101 = 0xFFFFFFFF ∧
    (hostWrite (st (-3) 7 0) 0x100 10).x .A = -4294967286 := by decide

theorem test_write_while_busy : hostWrite (started 3 3 7 0) 0x100 5 = started 3 3 7 0 := by decide

theorem test_reserved_addresses : hostRead (st 1 1 1) 0x102 = 0 ∧ hostWrite (st 1 1 1) 0x102 9 = st 1 1 1 ∧
    hostRead (st 1 1 1) 0x7FF = 0 ∧ hostRead (st 1 1 1) 0x002 = 2 := by decide

theorem test_reset_while_busy : (resetInput (started 3 3 7 0)).status = 0 ∧ (resetInput (started 3 3 7 0)).x .A = 0 := by decide

/-! Witnesses: for each statement with hypotheses, a concrete state that meets them, at the boundary values of its clauses. -/

/-- What a witness for a statement about an operation on an accepted command needs. -/
theorem starting_each : (started 1 5 3 0).starting .egcd ∧ (started 2 5 3 7).starting .modexp ∧
    (started 3 5 3 0).starting .modinv ∧ (started 4 5 3 5).starting .privkey :=
  ⟨⟨rfl, rfl, rfl⟩, ⟨rfl, rfl, rfl⟩, ⟨rfl, rfl, rfl⟩, ⟨rfl, rfl, rfl⟩⟩

/-- A loop of each kind, one pass in. -/
theorem loops : (engineSteps 2 (started 2 65 17 3233)).BUSY = true ∧ (engineSteps 2 (started 2 65 17 3233)).SEQ = .MODEXP_ITER ∧
    (engineSteps 2 (started 3 17 3120 0)).BUSY = true ∧ (engineSteps 2 (started 3 17 3120 0)).SEQ = .EGCD_ITER := by decide

theorem witness_EncodeAndDecodeAgree : Instr.privkey.wf = true ∧ decode 4 = .ok .privkey := by decide

theorem witness_EveryWordIsACommandOrIllegal :
    decode 1 = .ok .egcd ∧ decode 4 = .ok .privkey ∧ (st 0 0 0).BUSY = false ∧
    (started 5 0 0 0).BUSY = true ∧ (started 5 0 0 0).SEQ = .START ∧ (started 5 0 0 0).CMD = 5 ∧
    (∀ i, decode 5 ≠ .ok i) ∧ (∀ i, decode 0 ≠ .ok i) ∧ ∀ i, decode 0x10 ≠ .ok i := by
  refine ⟨by decide, by decide, by decide, by decide, by decide, by decide, ?_, ?_, ?_⟩ <;> intro i <;> cases i <;> decide

theorem witness_StepRunsTheDecodedCommand :
    ((started 4 5 3 5).withTurns [.command]).turns = [.command] ∧ ((started 4 5 3 5).withTurns [.command]).starting .privkey ∧
    Instr.privkey.wf = true := ⟨rfl, ⟨rfl, rfl, rfl⟩, rfl⟩

theorem witness_EngineTurnTakesTheEnabledStep :
    ((started 1 5 3 0).withTurns [.engine]).turns = [.engine] ∧ (started 1 5 3 0).turns = [] ∧ (st 0 0 0).BUSY = false := by decide

theorem witness_AcceptanceEffect :
    ((st 5 3 0).withTurns [.write 0 0xFFFFFFFF]).turns = [.write 0 0xFFFFFFFF] ∧
    ((st 5 3 0).withTurns [.write 0 0xFFFFFFFF]).BUSY = false := by decide

theorem witness_WritesWhileBusyAreDropped :
    ((started 1 5 3 0).withTurns [.write 0 2]).turns = [.write 0 2] ∧ ((started 1 5 3 0).withTurns [.write 0 2]).BUSY = true := by
  decide

theorem witness_HostReadFollowsTheMap :
    ((st 5 3 0).withTurns [.read 0x7FF]).turns = [.read 0x7FF] ∧ (st 5 3 0).shape ∧
    (0x100 : Addr).toNat = 0x100 * (BigReg.A.number + 1) + 0 ∧ (0x601 : Addr).toNat = 0x100 * (BigReg.R2.number + 1) + 1 ∧
    1 < (st 5 3 0).L ∧ 3 ≤ (0x003 : Addr).toNat ∧ (0x0FF : Addr).toNat < 0x100 ∧ 0x700 ≤ (0x700 : Addr).toNat ∧
    (st 5 3 0).L ≤ (0x102 : Addr).toNat % 0x100 :=
  ⟨by decide, shape_st .., by decide⟩

theorem witness_HostWriteStoresOneLimb_limb :
    ((st 5 3 0).withTurns [.write 0x301 9]).shape ∧ ((st 5 3 0).withTurns [.write 0x301 9]).turns = [.write 0x301 9] ∧
    ((st 5 3 0).withTurns [.write 0x301 9]).BUSY = false ∧ (0x301 : Addr).toNat = 0x100 * (BigReg.C.number + 1) + 1 ∧
    1 < (st 5 3 0).L ∧ BigReg.C.isOperand = true ∧ (0x300 : Addr) ≠ 0x301 :=
  ⟨shape_turns (shape_st ..) _, by decide⟩

theorem witness_HostWriteStoresOneLimb_elsewhere :
    (0x001 : Addr) ≠ 0 ∧ (0x0FF : Addr).toNat < 0x100 ∧ 0x400 ≤ (0x400 : Addr).toNat ∧
    (st 5 3 0).L ≤ (0x102 : Addr).toNat % 0x100 ∧ (started 1 5 3 0).BUSY = true := by decide

theorem shape_engineSteps_2 : (engineSteps 2 (started 3 17 3120 0)).shape ∧ (engineSteps 2 (started 2 65 17 3233)).shape := by
  refine ⟨⟨by decide, fun X => ?_⟩, ⟨by decide, fun X => ?_⟩⟩ <;> cases X <;> decide

/-- The invariant in a state that holds results. -/
theorem inv_done : (engineSteps 7 (started 1 17 3120 0)).Inv where
  shape := ⟨by decide, fun X => by cases X <;> decide⟩
  idle := by decide
  busy := by intro h; exact absurd h (by decide)
  error := by intro h; exact absurd h (by decide)
  modexp := by intro h; exact absurd h (by decide)
  egcd := by intro h; exact absurd h (by decide)

/-- The invariant in a state that holds an error. -/
theorem inv_error : (engineSteps 1 (started 5 17 3120 0)).Inv where
  shape := ⟨by decide, fun X => by cases X <;> decide⟩
  idle := by decide
  busy := by intro h; exact absurd h (by decide)
  error := by intro _; exact ⟨by decide, by decide, by decide, by decide⟩
  modexp := by intro h; exact absurd h (by decide)
  egcd := by intro h; exact absurd h (by decide)

/-- The invariant inside the square-and-multiply loop. -/
theorem inv_modexp : (engineSteps 2 (started 2 65 17 3233)).Inv where
  shape := shape_engineSteps_2.2
  idle := by decide
  busy := by intro _; exact ⟨by decide, by decide, by decide, by decide, by decide⟩
  error := by intro h; exact absurd h (by decide)
  modexp := by intro _; unfold State.modexpInv; refine ⟨rfl, ?_⟩; decide
  egcd := by intro h; exact absurd h (by decide)

/-- The invariant inside the Euclidean loop. -/
theorem inv_egcd : (engineSteps 2 (started 3 17 3120 0)).Inv where
  shape := shape_engineSteps_2.1
  idle := by decide
  busy := by intro _; exact ⟨by decide, by decide, by decide, by decide, by decide⟩
  error := by intro h; exact absurd h (by decide)
  modexp := by intro h; exact absurd h (by decide)
  egcd := by intro _; refine ⟨.modinv, rfl, ?_⟩; decide

theorem witness_StatusIsOneOfSeven :
    (∃ s : State, s.Inv ∧ s.BUSY = true) ∧ (∃ s : State, s.Inv ∧ s.ERR ≠ .noError) ∧ ∃ s : State, s.Inv ∧ s.status = 0x02 :=
  ⟨⟨_, inv_modexp, by decide⟩, ⟨_, inv_error, by decide⟩, ⟨_, inv_done, by decide⟩⟩

theorem witness_ResetLeavesTheSpecifiedValues :
    ((started 1 5 3 0).withTurns [.reset]).turns = [.reset] ∧ 0 ≤ 256 ∧ 256 ≤ 256 := by decide

theorem witness_ResetMeetsTheInvariant : Config.legalLimbs 1 = true ∧ Config.legalLimbs 256 = true := by decide

theorem witness_EveryStepKeepsTheInvariant :
    ∃ s t : State, s.Inv ∧ step s = .next t ∧ t.Inv ∧ s ≠ t :=
  ⟨started 1 17 3120 0, engineSteps 1 (started 1 17 3120 0),
    { shape := shape_started .., idle := by decide, busy := fun _ => ⟨rfl, rfl, by decide, by decide, by decide⟩,
      error := fun h => absurd rfl h, modexp := fun h => absurd h (by decide), egcd := fun h => absurd h (by decide) },
    rfl,
    { shape := ⟨by decide, fun X => by cases X <;> decide⟩, idle := by decide,
      busy := fun _ => ⟨by decide, by decide, by decide, by decide, by decide⟩,
      error := fun h => absurd (by decide) h, modexp := fun h => absurd h (by decide),
      egcd := fun _ => ⟨.egcd, rfl, by decide⟩ }, by decide⟩

/-- A step that writes an operand, one that resets, and one of the engine, with an operand register. -/
theorem witness_OnlyTheHostWritesOperands :
    BigReg.A.isOperand = true ∧ (∃ t, step ((st 5 3 0).withTurns [.write 0x100 9]) = .next t ∧ t.A = [9#32, 0#32]) ∧
    (∃ t, step ((st 5 3 0).withTurns [.reset]) = .next t ∧ t.A = [0#32, 0#32]) ∧
    ∃ t, step ((started 1 5 3 0).withTurns [.engine]) = .next t ∧ t.A = [5#32, 0#32] :=
  ⟨rfl, ⟨_, rfl, by decide⟩, ⟨_, rfl, by decide⟩, ⟨_, rfl, by decide⟩⟩

theorem witness_ResultsChangeAtThreeMomentsOnly :
    (∃ s : State, s.Inv ∧ s.BUSY = true) ∧ ∃ s t : State, s.Inv ∧ step s = .next t :=
  ⟨⟨_, inv_egcd, by decide⟩, ⟨_, _, inv_done, rfl⟩⟩

theorem witness_BusyAndDoneChangeOnlyAsStated :
    (∃ t, step ((st 5 3 0).withTurns [.write 0 1]) = .next t ∧ (st 5 3 0).BUSY = false ∧ t.BUSY = true) ∧
    (∃ t, step ((started 5 5 3 0).withTurns [.engine]) = .next t ∧ t.BUSY = false ∧ t.DONE = true) ∧
    ∃ t, step ((engineSteps 1 (started 5 5 3 0)).withTurns [.write 0 1]) = .next t ∧
      (engineSteps 1 (started 5 5 3 0)).DONE = true ∧ t.DONE = false :=
  ⟨⟨_, rfl, by decide, by decide⟩, ⟨_, rfl, by decide, by decide⟩, ⟨_, rfl, by decide, by decide⟩⟩

theorem witness_SequencerMovesAsStated :
    (∃ s t : State, s.Inv ∧ step s = .next t ∧ t.SEQ = .MODEXP_ITER) ∧
    (∃ s t : State, s.Inv ∧ step s = .next t ∧ t.SEQ = .EGCD_ITER) ∧ (started 1 5 3 0).SEQ = .START ∧
    (started 1 5 3 0).turns = [] :=
  ⟨⟨_, _, inv_modexp, rfl, by decide⟩, ⟨_, _, inv_egcd, rfl, by decide⟩, by decide, by decide⟩

theorem witness_ResultsStayUntilTheNextCommand :
    ∃ s t : State, s.Inv ∧ s.DONE = true ∧ step s = .next t ∧
      ∀ u ts, s.turns = u :: ts → ¬u.writesCmd ∧ u ≠ .reset :=
  ⟨engineSteps 7 (started 1 17 3120 0), _, inv_done, by decide, rfl, fun u ts h => by
    rw [show (engineSteps 7 (started 1 17 3120 0)).turns = [] by decide] at h; cases h⟩

theorem witness_OnlyMalformedBusAccessesStop :
    step ((st 5 3 0).withTurns [.busRead 0 2]) = .refused .notOneWord ∧
    step ((st 5 3 0).withTurns [.busRead 8192 4]) = .refused .outsideRegisterSpace ∧
    ∃ t, step ((st 5 3 0).withTurns [.busRead 8188 4]) = .next t := ⟨rfl, rfl, ⟨_, rfl⟩⟩

theorem witness_BusAccessIsAWordAccess : (3 : Nat) ≠ 4 ∧ 1 % 4 ≠ 0 := by decide

theorem witness_IllegalWordEndsInIllegalCmd :
    (st 5 3 0).BUSY = false ∧ (0x10 : Word) ≠ 1 ∧ (0x10 : Word) ≠ 2 ∧ (0x10 : Word) ≠ 3 ∧ (0x10 : Word) ≠ 4 ∧
    ((st 5 3 0).withTurns [.write 0 0x10, .engine]).turns = [.write 0 0x10, .engine] := by decide

theorem witness_EgcdStartStep :
    (started 1 0 0 7).starting .egcd ∧ (started 1 0 0 7).x .A = 0 ∧ (started 1 0 0 7).x .B = 0 ∧
    (started 1 0 (-5) 0).starting .egcd ∧ ¬((started 1 0 (-5) 0).x .A = 0 ∧ (started 1 0 (-5) 0).x .B = 0) :=
  ⟨⟨rfl, rfl, rfl⟩, by decide, by decide, ⟨rfl, rfl, rfl⟩, by decide⟩

/-- A pass with the identities of the operands, and the two finishing steps. -/
theorem witness_EuclidIterationStep :
    (engineSteps 2 (started 3 17 3120 0)).RB ≠ 0 ∧
    17 * (engineSteps 2 (started 3 17 3120 0)).SA + 3120 * (engineSteps 2 (started 3 17 3120 0)).TA =
      (engineSteps 2 (started 3 17 3120 0)).RA ∧
    (engineSteps 6 (started 3 17 3120 0)).RB = 0 ∧ (engineSteps 6 (started 3 17 3120 0)).FIN = .FIN_INV ∧
    (engineSteps 6 (started 3 17 3120 0)).BUSY = true ∧ (engineSteps 6 (started 3 17 3120 0)).SEQ = .EGCD_ITER ∧
    (engineSteps 6 (started 1 17 3120 0)).RB = 0 ∧ (engineSteps 6 (started 1 17 3120 0)).FIN = .FIN_EGCD := by decide

/-- The working registers that meet each clause of the finishes. -/
def finishing (ra sa ta md : Int) : State := { started 1 0 0 0 with RA := ra, SA := sa, TA := ta, MD := md }

theorem witness_EuclidFinishes :
    (finishing 1 2 3 5).shape ∧ (Config.fits 2 (-2 ^ 63) ∧ Config.fits 2 (2 ^ 63 - 1)) ∧ ¬Config.fits 2 (2 ^ 63) ∧
    ((finishing 2 0 0 5).RA ≠ 1 ∧ (finishing 2 0 0 5).RA ≠ -1) ∧ (finishing (-1) (-1) 0 5).SA < 0 ∧
    Config.fits 2 ((finishing (-1) (-1) 0 5).SA + (finishing (-1) (-1) 0 5).MD) ∧ 0 ≤ (finishing 1 0 0 5).SA ∧
    ¬Config.fits 2 (finishing 1 (2 ^ 63) 0 5).SA :=
  ⟨⟨rfl, fun X => by cases X <;> rfl⟩, by decide⟩

theorem witness_ModexpStartStep :
    (started 2 5 (-1) 7).starting .modexp ∧ (started 2 5 (-1) 7).x .B < 0 ∧ (started 2 5 0 0).x .C ≤ 0 ∧
    (started 2 5 0 1).starting .modexp ∧ (started 2 5 0 1).x .B = 0 ∧ 0 < (started 2 5 0 1).x .C ∧
    0 < (started 2 5 1 1).x .B :=
  ⟨⟨rfl, rfl, rfl⟩, by decide, by decide, ⟨rfl, rfl, rfl⟩, by decide⟩

theorem witness_ModexpIterationStep :
    (engineSteps 2 (started 2 65 17 3233)).I ≠ 0 ∧ 0 < (engineSteps 2 (started 2 65 17 3233)).MD ∧
    fmod (fdiv (engineSteps 2 (started 2 65 17 3233)).EX (2 ^ 3)) 2 = 0 ∧
    (engineSteps 1 (started 2 65 17 3233)).I = 5 ∧ fmod (fdiv (engineSteps 1 (started 2 65 17 3233)).EX (2 ^ 4)) 2 = 1 ∧
    (engineSteps 6 (started 2 65 17 3233)).I = 0 ∧ Config.fits 2 (engineSteps 6 (started 2 65 17 3233)).ACC ∧
    (engineSteps 6 (started 2 65 17 3233)).SEQ = .MODEXP_ITER := by decide

theorem witness_InverseStartSteps :
    (started 3 5 0 0).starting .modinv ∧ (started 3 5 0 0).x .B ≤ 0 ∧ 0 < (started 3 5 1 0).x .B ∧
    (started 4 5 1 53).starting .privkey ∧ ((started 4 5 1 53).x .B - 1) * ((started 4 5 1 53).x .C - 1) ≤ 0 ∧
    Config.maxInt 2 < ((started 4 3 4294967297 2147483649).x .B - 1) * ((started 4 3 4294967297 2147483649).x .C - 1) ∧
    0 < ((started 4 5 2 2).x .B - 1) * ((started 4 5 2 2).x .C - 1) :=
  ⟨⟨rfl, rfl, rfl⟩, by decide, by decide, ⟨rfl, rfl, rfl⟩, by decide⟩

theorem witness_EgcdMeetsItsContract :
    (st 0 (-5) 0).shape ∧ ¬((st 0 (-5) 0).x .A = 0 ∧ (st 0 (-5) 0).x .B = 0) ∧ (st 0 0 9).x .A = 0 ∧ (st 0 0 9).x .B = 0 :=
  ⟨shape_st .., by decide⟩

theorem witness_EgcdSignAndTermination :
    (st (-5) 0 0).shape ∧ ¬((st (-5) 0 0).x .A = 0 ∧ (st (-5) 0 0).x .B = 0) ∧
    ends (exec .egcd (st (-5) 0 0)) 0x02 (-5) 1 0 = true ∧ (started 1 (-5) 0 0).starting .egcd :=
  ⟨shape_st .., by decide, by decide, ⟨rfl, rfl, rfl⟩⟩

theorem witness_EuclidCommandsStepCount :
    (started 1 5 0 0).starting .egcd ∧ ¬((started 1 5 0 0).x .A = 0 ∧ (started 1 5 0 0).x .B = 0) ∧
    (started 3 5 1 0).starting .modinv ∧ 0 < (started 3 5 1 0).x .B ∧ (started 4 5 2 2).starting .privkey ∧
    0 < ((started 4 5 2 2).x .B - 1) * ((started 4 5 2 2).x .C - 1) ∧
    ((started 4 5 2 2).x .B - 1) * ((started 4 5 2 2).x .C - 1) ≤ Config.maxInt 2 :=
  ⟨⟨rfl, rfl, rfl⟩, by decide, ⟨rfl, rfl, rfl⟩, by decide, ⟨rfl, rfl, rfl⟩, by decide⟩

theorem witness_ModexpMeetsItsContract :
    (st 7 0 1).shape ∧ 0 ≤ (st 7 0 1).x .B ∧ 0 < (st 7 0 1).x .C ∧ (st 7 0 1).x .B = 0 ∧ 0 < (st (-2) 3 7).x .B :=
  ⟨shape_st .., by decide⟩

theorem witness_ModexpRejectsBadArguments : (st 2 (-1) 5).x .B < 0 ∧ (st 2 3 0).x .C ≤ 0 := by decide

theorem witness_ModexpStepCount :
    (started 2 3 (2 ^ 63 - 1) 1000).shape ∧ (started 2 3 (2 ^ 63 - 1) 1000).starting .modexp ∧
    0 ≤ (started 2 3 (2 ^ 63 - 1) 1000).x .B ∧ 0 < (started 2 3 (2 ^ 63 - 1) 1000).x .C :=
  ⟨shape_started .., ⟨rfl, rfl, rfl⟩, by decide⟩

theorem witness_ModexpAgreesWithTheRecursion :
    (engineSteps 2 (started 2 65 17 3233)).I ≠ 0 ∧
    (engineSteps 2 (started 2 65 17 3233)).I ≤ bitlen (engineSteps 2 (started 2 65 17 3233)).EX ∧
    0 < (engineSteps 2 (started 2 65 17 3233)).MD ∧ 0 ≤ (engineSteps 2 (started 2 65 17 3233)).EX ∧
    (engineSteps 2 (started 2 65 17 3233)).ACC = modpow 65 (fdiv 17 (2 ^ 4)) 3233 := by decide

theorem witness_ModinvMeetsItsContract :
    (st 17 3120 0).shape ∧ 0 < (st 17 3120 0).x .B ∧ Int.gcd ((st 17 3120 0).x .A) ((st 17 3120 0).x .B) = 1 ∧
    Int.gcd ((st 4 6 0).x .A) ((st 4 6 0).x .B) ≠ 1 ∧ 0 < (st 5 1 0).x .B ∧
    fmod ((st 10 7 0).x .A) 7 = fmod ((st 3 7 0).x .A) 7 ∧ ends (exec .modinv (st 10 7 0)) 0x02 5 0 0 = true :=
  ⟨shape_st .., by decide⟩

theorem witness_ModinvRejectsBadModulus : (st 17 0 0).x .B ≤ 0 ∧ (st 17 (-3120) 0).x .B ≤ 0 := by decide

/-- A totient of each clause: 0, above MAX, and in range with and without a common divisor. -/
theorem witness_PrivkeyMeetsItsContract :
    (st 17 61 53).shape ∧ ((st 17 61 53).x .B - 1) * ((st 17 61 53).x .C - 1) = 3120 ∧ Int.gcd 17 3120 = 1 ∧
    Int.gcd 4 (((st 4 3 11).x .B - 1) * ((st 4 3 11).x .C - 1)) ≠ 1 ∧
    ((st 17 1 53).x .B - 1) * ((st 17 1 53).x .C - 1) ≤ 0 ∧
    Config.maxInt 2 < ((st 3 4294967297 2147483649).x .B - 1) * ((st 3 4294967297 2147483649).x .C - 1) :=
  ⟨shape_st .., by decide⟩

theorem witness_PrivkeyIsModinvOfTheTotient :
    (st 17 61 53).shape ∧ (st 17 3120 0).shape ∧ (st 17 3120 0).L = (st 17 61 53).L ∧
    (st 17 3120 0).x .B = ((st 17 61 53).x .B - 1) * ((st 17 61 53).x .C - 1) ∧ 0 < (st 17 3120 0).x .B ∧
    (∃ t, exec .privkey (st 17 61 53) = .next t) ∧ ∃ t, exec .modinv (st 17 3120 0) = .next t :=
  ⟨shape_st .., shape_st .., by decide, by decide, by decide, ⟨_, rfl⟩, ⟨_, rfl⟩⟩

theorem witness_ErrorsAreExactlyTheTabulatedOnes :
    (st 4 6 0).shape ∧ (∃ t, exec .egcd (st 4 6 0) = .next t) ∧ (∃ t, exec .modexp (st 4 6 0) = .next t) ∧
    (∃ t, exec .modinv (st 4 6 0) = .next t) ∧ ∃ t, exec .privkey (st 4 6 0) = .next t :=
  ⟨shape_st .., ⟨_, rfl⟩, ⟨_, rfl⟩, ⟨_, rfl⟩, ⟨_, rfl⟩⟩

theorem witness_frames :
    (∃ t, exec .egcd (st 5 3 0) = .next t) ∧ (∃ t, exec .modexp (st 5 3 7) = .next t) ∧
    ¬resultAddr 0x3FF ∧ ¬resultAddr 0x700 ∧ ¬resultAddr 0x000 ∧ ¬resultAddr 0x002 :=
  ⟨⟨_, rfl⟩, ⟨_, rfl⟩, by unfold resultAddr; decide, by unfold resultAddr; decide, by unfold resultAddr; decide,
    by unfold resultAddr; decide⟩

theorem witness_CommandsMatchTheResultFunctions : (st 17 61 53).shape := shape_st ..

theorem witness_EngineStepsEqualTheMergedCommand :
    (started 1 5 3 0).BUSY = true ∧ (started 1 5 3 0).SEQ ≠ .IDLE ∧ (engineSteps 2 (started 2 65 17 3233)).SEQ ≠ .IDLE ∧
    (engineSteps 2 (started 3 17 3120 0)).SEQ ≠ .IDLE := by decide

/-- Two states with the same operands A and B and different C, CMD and status. -/
theorem witness_OutcomeDependsOnlyOnTheOperands :
    (st 5 3 0).L = (started 1 5 3 9).L ∧ (st 5 3 0).A = (started 1 5 3 9).A ∧ (st 5 3 0).B = (started 1 5 3 9).B ∧
    (st 5 3 0).C ≠ (started 1 5 3 9).C ∧ (∃ t, exec .egcd (st 5 3 0) = .next t) ∧
    ∃ t, exec .egcd (started 1 5 3 9) = .next t :=
  ⟨rfl, rfl, rfl, by decide, ⟨_, rfl⟩, ⟨_, rfl⟩⟩

theorem witness_OperandsAreReadInTheStartStepOnly :
    BigReg.A.isOperand = true ∧ (engineSteps 2 (started 2 65 17 3233)).SEQ = .MODEXP_ITER ∧
    (engineSteps 2 (started 3 17 3120 0)).SEQ = .EGCD_ITER := by decide

theorem witness_InfoIsConstant : ∃ t, step ((st 5 3 0).withTurns [.reset]) = .next t := ⟨_, rfl⟩

theorem witness_ScriptSetLoadsTheRegister :
    ((st 5 3 0).withTurns (expand 2 (.set .C (-2 ^ 63)))).shape ∧ (st 5 3 0).BUSY = false ∧
    (Line.set .C (-2 ^ 63)).wf 2 = true ∧ expand 2 (.set .C (-2 ^ 63)) = [.write 0x300 0, .write 0x301 0x80000000] :=
  ⟨shape_turns (shape_st ..) _, by decide, by decide, by decide⟩

theorem witness_ScriptGetReadsTheRegister :
    ((st 5 3 0).withTurns (expand 2 (.get .R2))).shape ∧ expand 2 (.get .R2) = [.read 0x600, .read 0x601] :=
  ⟨shape_turns (shape_st ..) _, by decide⟩

theorem witness_CallRunsTheCommandToItsResult :
    ((st 5 3 0).withTurns (expand 2 (.call (.instr .egcd)))).shape ∧ (st 5 3 0).BUSY = false ∧
    expand 2 (.call (.instr .egcd)) = [.write 0x000 1, .wait] :=
  ⟨shape_turns (shape_st ..) _, by decide, by decide⟩

/-- The key of 95_test_vectors.md section 1.1, and its ciphertext. -/
theorem witness_RsaRoundTrip :
    (st 17 61 53).shape ∧ Nat.Prime 61 ∧ Nat.Prime 53 ∧ (61 : Nat) ≠ 53 ∧ (st 17 61 53).x .B = (61 : Nat) ∧
    (st 17 61 53).x .C = (53 : Nat) ∧ 0 < (st 17 61 53).x .A ∧ Int.gcd ((st 17 61 53).x .A) ((61 - 1) * (53 - 1)) = 1 ∧
    Config.fits 2 (61 * 53) ∧ (st 65 17 3233).x .C = 61 * 53 ∧ (st 2790 2753 3233).x .A = 2790 :=
  ⟨shape_st .., by norm_num, by norm_num, by decide⟩

theorem witness_FloorDivisionLaws : (-3 : Int) ≠ 0 ∧ (0 : Int) < 3 ∧ (-3 : Int) < 0 := by decide

end Sys2Proof.Tests
end

section
/-! Floor division and remainder of 00_scope.md R6 against the rational quotient. -/

namespace Sys2Proof.Machine

/-- The rational quotient splits into the integer quotient and the remainder's share of the divisor. -/
theorem intCast_div_eq_fdiv_add {n d : Int} (hd : d ≠ 0) :
    (n : ℚ) / d = fdiv n d + (fmod n d : ℚ) / d := by
  have hq : (d : ℚ) ≠ 0 := Int.cast_ne_zero.mpr hd
  have h : (d : ℚ) * fdiv n d + fmod n d = n := by exact_mod_cast fdiv_mul_add_fmod n d
  rw [← h, add_div, mul_div_cancel_left₀ _ hq]

/-- The remainder has the divisor's sign and the smaller size, so its share of the divisor lies in `[0, 1)`. -/
theorem fmod_div_mem_Ico {n d : Int} (hd : d ≠ 0) : (fmod n d : ℚ) / d ∈ Set.Ico (0 : ℚ) 1 := by
  rcases lt_or_gt_of_ne hd with h | h
  · have hq : (d : ℚ) < 0 := Int.cast_lt_zero.mpr h
    exact ⟨div_nonneg_of_nonpos (Int.cast_nonpos.mpr (fmod_nonpos h)) hq.le,
      (div_lt_one_of_neg hq).mpr (Int.cast_lt.mpr (lt_fmod h))⟩
  · have hq : (0 : ℚ) < d := Int.cast_pos.mpr h
    exact ⟨div_nonneg (Int.cast_nonneg (fmod_nonneg h)) hq.le,
      (div_lt_one hq).mpr (Int.cast_lt.mpr (fmod_lt h))⟩

theorem fdiv_eq_floor {n d : Int} (hd : d ≠ 0) : fdiv n d = ⌊(n : ℚ) / (d : ℚ)⌋ := by
  rw [intCast_div_eq_fdiv_add hd, Int.floor_intCast_add, Int.floor_eq_zero_iff.mpr (fmod_div_mem_Ico hd), add_zero]

theorem abs_fmod_lt {n d : Int} (hd : d ≠ 0) : |fmod n d| < |d| := by
  rw [Int.abs_eq_natAbs, Int.abs_eq_natAbs]
  exact Int.ofNat_lt.mpr (natAbs_fmod_lt hd)

/-- Settles O53: the laws follow from the sign and size of `fmod`; the six examples of R6 evaluate. -/
theorem floorDivisionLaws : Obligations.FloorDivisionLaws := by
  refine ⟨fun n d hd => ⟨rfl, abs_fmod_lt hd, fmod_nonneg, fmod_nonpos, fdiv_eq_floor hd⟩, ?_⟩
  decide

end Sys2Proof.Machine
end

section
/-! All a step can do, as one inversion: the effect on the state, with the turn and the guard that cause it. -/

namespace Sys2Proof.Machine

/-- The next turn is the engine's, at either grain, or the list of turns is exhausted (log 2). -/
def State.engineMoves (s : State) : Prop :=
  s.turns = [] ∨ ∃ ts, s.turns = .engine :: ts ∨ s.turns = .command :: ts

/-- The effect of one step from `s`. -/
inductive StepEffect (s : State) : State → Prop
  /-- Nothing but the agents' own fields moves: a read, a pass of WAIT, a dropped write, an engine turn with no step enabled. -/
  | hostOnly (ts : List Turn) (rs : List Word) : StepEffect s (s.withHost ts rs)
  /-- A write to CMD while idle (40_command_lifecycle.md R75). -/
  | acceptance {u : Turn} {ts : List Turn} {v : Word} (hturns : s.turns = u :: ts) (hwrites : u.writesWord 0x000 v)
      (hidle : s.BUSY = false) : StepEffect s (accept (s.withTurns ts) v)
  /-- A write to a limb of an operand register while idle (20_memory.md R46). -/
  | limbWrite {u : Turn} {ts : List Turn} {addr : Addr} {v : Word} {X : BigReg} {k : Nat} (hturns : s.turns = u :: ts)
      (hwrites : u.writesWord addr v) (hidle : s.BUSY = false) (hX : X.isOperand = true) (hk : k < s.L)
      (haddr : addr.toNat = 0x100 * (X.number + 1) + k) :
      StepEffect s ((s.withTurns ts).setBig X ((s.big X).set k v))
  /-- The reset input (70_reset_and_hazards.md R150). -/
  | reset {ts : List Turn} (hturns : s.turns = .reset :: ts) : StepEffect s (resetInput (s.withTurns ts))
  /-- The engine completes its command, with or without an error (40_command_lifecycle.md R81). -/
  | completion {ts : List Turn} {t : State} (hmoves : s.engineMoves) (hbusy : s.BUSY = true)
      (hends : EndsFrom (s.withTurns ts) t) : StepEffect s t
  /-- The engine takes one step and stays in, or enters, a loop (40_command_lifecycle.md R77, R78). -/
  | work {ts : List Turn} (hmoves : s.engineMoves) (hbusy : s.BUSY = true)
      (hworks : WorksFrom (s.withTurns ts) (engineStep (s.withTurns ts))) : StepEffect s (engineStep (s.withTurns ts))

theorem hostWrite_effect {s : State} {u : Turn} {ts : List Turn} {addr : Addr} {v : Word} (hturns : s.turns = u :: ts)
    (hwrites : u.writesWord addr v) : StepEffect s (hostWrite (s.withTurns ts) addr v) := by
  rcases hostWrite_cases (s.withTurns ts) addr v with h | ⟨hb, rfl, h⟩ | ⟨X, k, hb, hX, hk, -, haddr, h⟩ <;> rw [h]
  · exact .hostOnly ts s.reads
  · exact .acceptance hturns hwrites hb
  · rw [big_withTurns]
    exact .limbWrite hturns hwrites hb hX hk haddr

theorem engineStep_effect {s : State} (ts : List Turn) (hmoves : s.engineMoves) :
    StepEffect s (engineStep (s.withTurns ts)) := by
  rcases engineStep_cases (s.withTurns ts) with ⟨h, -⟩ | ⟨hb, hE⟩ | ⟨hb, hW, -⟩
  · rw [h]; exact .hostOnly ts s.reads
  · exact .completion hmoves hb hE
  · exact .work hmoves hb hW

theorem commandStep_effect {s t : State} {ts : List Turn} (hmoves : s.engineMoves)
    (h : commandStep (s.withTurns ts) = .next t) : StepEffect s t := by
  obtain ⟨t', ht', hcase⟩ := commandStep_cases (s.withTurns ts)
  obtain rfl : t' = t := by simpa [ht'] using h
  rcases hcase with ⟨rfl, -⟩ | ⟨hb, -, hE⟩
  · exact .hostOnly ts s.reads
  · exact .completion hmoves hb hE

theorem waitTurn_eq_withHost (s : State) : ∃ ts rs, waitTurn s = s.withHost ts rs := by
  cases hb : s.BUSY with
  | true => exact ⟨_, _, waitTurn_busy hb⟩
  | false => exact ⟨_, _, waitTurn_idle hb⟩

/-- Every step that answers a next state has one of the effects. -/
theorem step_effect {s t : State} (h : step s = .next t) : StepEffect s t := by
  rcases step_cases h with ⟨hnil, rfl⟩ | ⟨u, ts, hturns, hu⟩
  · exact engineStep_effect s.turns (.inl hnil)
  rcases takeTurn_cases hu with ⟨addr, rfl, -⟩ | ⟨addr, v, hw, rfl⟩ | ⟨rfl, rfl⟩ | ⟨rfl, rfl⟩ | ⟨rfl, rfl⟩ | ⟨rfl, hc⟩
  · exact .hostOnly ts (hostRead (s.withTurns ts) addr :: s.reads)
  · exact hostWrite_effect hturns hw
  · obtain ⟨us, rs, hw⟩ := waitTurn_eq_withHost (s.withTurns ts)
    rw [hw]
    exact .hostOnly us rs
  · exact .reset hturns
  · exact engineStep_effect ts (.inr ⟨ts, .inl hturns⟩)
  · exact commandStep_effect (.inr ⟨ts, .inr hturns⟩) hc

end Sys2Proof.Machine
end

section
/-! The shape of the registers and the frame of a completion, carried through each effect. -/

namespace Sys2Proof.Machine

/-- A legal build and six register lengths are the shape. -/
theorem shape_of_lengths {s : State} (hL : Config.legalLimbs s.L = true) (hA : s.A.length = s.L) (hB : s.B.length = s.L)
    (hC : s.C.length = s.L) (h0 : s.R0.length = s.L) (h1 : s.R1.length = s.L) (h2 : s.R2.length = s.L) : s.shape :=
  ⟨hL, fun X => by cases X <;> assumption⟩

theorem shape_L_pos {s : State} (h : s.shape) : 1 ≤ s.L := (of_decide_eq_true h.1).1

/-- An operand of a state with the shape fits the width (10_state.md R10). -/
theorem fits_x {s : State} (h : s.shape) (X : BigReg) : Config.fits s.L (s.x X) :=
  fits_sextLimbs (h.2 X) (shape_L_pos h)

theorem shape_resetOf {L : Nat} (hL : Config.legalLimbs L = true) : (State.resetOf L).shape :=
  ⟨hL, fun X => by cases X <;> exact List.length_replicate⟩

theorem shape_resetInput {s : State} (h : s.shape) : (resetInput s).shape :=
  ⟨h.1, fun X => by cases X <;> exact List.length_replicate⟩

theorem shape_accept {s : State} (h : s.shape) (v : Word) : (accept s v).shape :=
  shape_of_lengths h.1 (h.2 .A) (h.2 .B) (h.2 .C) (zeroLimbs_length _) (zeroLimbs_length _) (zeroLimbs_length _)

theorem shape_setBig {s : State} (h : s.shape) {X : BigReg} {ws : List Word} (hws : ws.length = s.L) :
    (s.setBig X ws).shape := by
  refine ⟨by rw [setBig_L]; exact h.1, fun Y => ?_⟩
  rw [big_setBig, setBig_L]
  split
  · exact hws
  · exact h.2 Y

theorem shape_withHost {s : State} (h : s.shape) (ts : List Turn) (rs : List Word) : (s.withHost ts rs).shape :=
  shape_of_lengths h.1 (h.2 .A) (h.2 .B) (h.2 .C) (h.2 .R0) (h.2 .R1) (h.2 .R2)

theorem WorksFrom.shape {s t : State} (h : WorksFrom s t) (hs : s.shape) : t.shape :=
  ⟨by rw [h.L]; exact hs.1, fun X => by rw [h.big, h.L]; exact hs.2 X⟩

/-- A completion leaves the operands alone (60_exceptions.md R137). -/
theorem EndsFrom.big_operand {s t : State} (h : EndsFrom s t) {X : BigReg} (hX : X.isOperand = true) :
    t.big X = s.big X := by
  cases X with
  | A => exact h.A
  | B => exact h.B
  | C => exact h.C
  | R0 | R1 | R2 => cases hX

theorem EndsFrom.shape {s t : State} (h : EndsFrom s t) (hs : s.shape) : t.shape := by
  obtain ⟨h0, h1, h2⟩ := h.len
  exact shape_of_lengths (by rw [h.L]; exact hs.1) (by rw [h.A, h.L]; exact hs.2 .A) (by rw [h.B, h.L]; exact hs.2 .B)
    (by rw [h.C, h.L]; exact hs.2 .C) (h0.trans h.L.symm) (h1.trans h.L.symm) (h2.trans h.L.symm)

/-- A completion shows at STATUS and in the windows of the results alone (40_command_lifecycle.md R81). -/
theorem EndsFrom.hostRead_eq {s t : State} (h : EndsFrom s t) {addr : Addr} (ha : ¬resultAddr addr) :
    hostRead t addr = hostRead s addr := by
  obtain ⟨hstatus, hwindow⟩ := not_or.mp ha
  refine hostRead_congr h.L h.CMD (fun h1 => absurd h1 hstatus) fun X hlo hhi => ?_
  apply h.big_operand
  rw [isOperand_iff]
  have := number_lt X
  omega

end Sys2Proof.Machine
end

section
/-! The invariant of 10_state.md R30: its two shapes (idle, busy), and each step of the engine keeps the part of it that
speaks of the loops. -/

namespace Sys2Proof.Machine

/-- The parts of R30 that speak of the two loops. -/
def State.loopInv (s : State) : Prop :=
  (s.SEQ = .MODEXP_ITER → s.modexpInv) ∧ (s.SEQ = .EGCD_ITER → s.egcdInv)

theorem loopInv_of_not_loop {s : State} (h : s.SEQ = .IDLE ∨ s.SEQ = .START) : s.loopInv := by
  rcases h with h | h <;> simp [State.loopInv, h]

theorem loopInv_of_modexp {s : State} (hs : s.SEQ = .MODEXP_ITER) (h : s.modexpInv) : s.loopInv :=
  ⟨fun _ => h, by simp [hs]⟩

theorem loopInv_of_egcd {s : State} (hs : s.SEQ = .EGCD_ITER) (h : s.egcdInv) : s.loopInv :=
  ⟨by simp [hs], fun _ => h⟩

theorem EndsFrom.loopInv {s t : State} (h : EndsFrom s t) : t.loopInv := loopInv_of_not_loop (.inl h.seq)

/-- The invariant of an idle state. -/
theorem State.Inv.of_idle {s : State} (hshape : s.shape) (hseq : s.SEQ = .IDLE) (hbusy : s.BUSY = false)
    (herror : s.ERR ≠ .noError → s.DONE = true ∧ s.zeroResults) : s.Inv where
  shape := hshape
  idle := iff_of_true hseq hbusy
  busy := by simp [hbusy]
  error := herror
  modexp := by simp [hseq]
  egcd := by simp [hseq]

/-- The invariant of a busy state. -/
theorem State.Inv.of_busy {s : State} (hshape : s.shape) (hseq : s.SEQ ≠ .IDLE) (hbusy : s.BUSY = true)
    (hdone : s.DONE = false) (herr : s.ERR = .noError) (hzero : s.zeroResults) (hloop : s.loopInv) : s.Inv where
  shape := hshape
  idle := iff_of_false hseq (by simp [hbusy])
  busy := fun _ => ⟨hdone, herr, hzero⟩
  error := fun h => absurd herr h
  modexp := hloop.1
  egcd := hloop.2

theorem State.Inv.seq_idle {s : State} (h : s.Inv) (hb : s.BUSY = false) : s.SEQ = .IDLE := h.idle.mpr hb

theorem State.Inv.seq_ne_idle {s : State} (h : s.Inv) (hb : s.BUSY = true) : s.SEQ ≠ .IDLE :=
  fun hs => by simp [h.idle.mp hs] at hb

theorem WorksFrom.zeroResults {s t : State} (h : WorksFrom s t) (hs : s.zeroResults) : t.zeroResults := by
  simpa only [State.zeroResults, h.x] using hs

/-- The second integer loaded is made of the operands. -/
theorem WorksFrom.secondOperand {s t : State} (h : WorksFrom s t) (i : Instr) :
    t.secondOperand i = s.secondOperand i := by
  cases i <;> simp only [State.secondOperand, h.x]

/-- The agents' own fields are no part of the invariant. -/
theorem State.Inv.withHost {s : State} (h : s.Inv) (ts : List Turn) (rs : List Word) : (s.withHost ts rs).Inv where
  shape := shape_withHost h.shape ts rs
  idle := h.idle
  busy := h.busy
  error := h.error
  modexp := h.modexp
  egcd := h.egcd

/-! The square-and-multiply loop (42_modexp.md R101, R103). -/

theorem modexpStart_loopInv {s : State} (hcmd : decode s.CMD = .ok .modexp) : (modexpStart s).loopInv := by
  rcases modexpStart_cases s with ⟨-, h⟩ | ⟨hB, hC, hW, hseq, hMD, hEX, hBS, hACC, hI⟩
  · rw [h]; exact (raise_endsFrom ..).loopInv
  · refine loopInv_of_modexp hseq ?_
    unfold State.modexpInv
    rw [hW.CMD, hW.x, hW.x, hW.x, hMD, hEX, hBS, hACC, hI]
    exact ⟨hcmd, rfl, rfl, rfl, hC, hB, le_refl _, fmod_nonneg hC, fmod_lt hC, .inl rfl⟩

theorem modexpInv_modexpPass {s : State} (h : s.modexpInv) : (modexpPass s).modexpInv := by
  obtain ⟨hcmd, hMD, hEX, hBS, hpos, hEX0, hI, hBS0, hBSlt, -⟩ := h
  exact ⟨hcmd, hMD, hEX, hBS, hpos, hEX0, (Nat.sub_le _ _).trans hI, hBS0, hBSlt, .inr (squareMultiply_range hpos)⟩

theorem modexpIter_loopInv {s : State} (hseq : s.SEQ = .MODEXP_ITER) (h : s.modexpInv) : (modexpIter s).loopInv := by
  by_cases hI : s.I = 0
  · rw [modexpIter_finish hI]; exact (complete_endsFrom ..).loopInv
  · rw [modexpIter_pass hI]; exact loopInv_of_modexp hseq (modexpInv_modexpPass h)

/-! The Euclidean loop (41_egcd.md R91, R93; 43_modinv.md R116, R121). -/

/-- The start values `(a, b, 1, 0, 0, 1)` meet the Bezout identities of R93. -/
theorem egcdInv_of_loaded {s t : State} {i : Instr} (hW : WorksFrom s t) (hcmd : decode s.CMD = .ok i) (hi : i ≠ .modexp)
    (hvars : t.euclidVars = ⟨s.x .A, s.secondOperand i, 1, 0, 0, 1⟩) (hzero : ¬(s.x .A = 0 ∧ s.secondOperand i = 0))
    (hFIN : t.FIN = .FIN_EGCD ↔ i = .egcd)
    (hMD : i ≠ .egcd → t.MD = s.secondOperand i ∧ 0 < t.MD ∧ Config.fits s.L t.MD) : t.egcdInv := by
  obtain ⟨hRA, hRB, hSA, hSB, hTA, hTB⟩ := EuclidVars.mk.inj hvars
  refine ⟨i, by rw [hW.CMD]; exact hcmd, hi, ?_, ?_, ?_, hFIN, ?_⟩
  · rw [hW.x, hW.secondOperand, hSA, hTA, hRA]; ring
  · rw [hW.x, hW.secondOperand, hSB, hTB, hRB]; ring
  · rw [hRA, hRB]; exact hzero
  · rw [hW.secondOperand, hW.L]; exact hMD

theorem egcdStart_loopInv {s : State} (hcmd : decode s.CMD = .ok .egcd) : (egcdStart s).loopInv := by
  rcases egcdStart_cases s with ⟨-, -, h⟩ | ⟨hzero, hW, hseq, hFIN, hvars⟩
  · rw [h]; exact (raise_endsFrom ..).loopInv
  · exact loopInv_of_egcd hseq
      (egcdInv_of_loaded hW hcmd (by decide) hvars hzero (iff_of_true hFIN rfl) fun h => absurd rfl h)

/-- `INV_LOAD` of a positive second integer that fits (43_modinv.md R116). -/
theorem invLoad_loopInv {s : State} {i : Instr} (hcmd : decode s.CMD = .ok i) (hi : i = .modinv ∨ i = .privkey)
    (hpos : 0 < s.secondOperand i) (hfits : Config.fits s.L (s.secondOperand i)) :
    (invLoad s (s.x .A) (s.secondOperand i)).loopInv := by
  obtain ⟨hmodexp, hegcd⟩ : i ≠ .modexp ∧ i ≠ .egcd := by rcases hi with rfl | rfl <;> decide
  exact loopInv_of_egcd rfl
    (egcdInv_of_loaded (invLoad_worksFrom ..) hcmd hmodexp rfl (fun h => hpos.ne' h.2)
      (iff_of_false (by simp) hegcd) fun _ => ⟨rfl, hpos, hfits⟩)

theorem modinvStart_loopInv {s : State} (hshape : s.shape) (hcmd : decode s.CMD = .ok .modinv) :
    (modinvStart s).loopInv := by
  rcases modinvStart_cases s with ⟨-, h⟩ | ⟨hpos, h⟩ <;> rw [h]
  · exact (raise_endsFrom ..).loopInv
  · exact invLoad_loopInv hcmd (.inl rfl) hpos (fits_x hshape .B)

theorem privkeyStart_loopInv {s : State} (hcmd : decode s.CMD = .ok .privkey) : (privkeyStart s).loopInv := by
  rcases privkeyStart_cases s with ⟨-, h⟩ | ⟨-, -, h⟩ | ⟨hpos, hfits, h⟩ <;> rw [h]
  · exact (raise_endsFrom ..).loopInv
  · exact (raise_endsFrom ..).loopInv
  · exact invLoad_loopInv hcmd (.inr rfl) hpos hfits

/-- A pass keeps both Bezout identities, because the three pairs share one quotient (41_egcd.md R93). -/
theorem egcdInv_euclidPass {s : State} (h : s.egcdInv) (hRB : s.RB ≠ 0) : (euclidPass s).egcdInv := by
  obtain ⟨i, hcmd, hi, hA, hB, -, hFIN, hMD⟩ := h
  have hbezout : s.x .A * (s.SA - fdiv s.RA s.RB * s.SB) + s.secondOperand i * (s.TA - fdiv s.RA s.RB * s.TB) =
      s.RA - fdiv s.RA s.RB * s.RB := by
    linear_combination hA - fdiv s.RA s.RB * hB
  exact ⟨i, hcmd, hi, hB, hbezout, fun hz => hRB hz.1, hFIN, hMD⟩

theorem egcdIter_loopInv {s : State} (hseq : s.SEQ = .EGCD_ITER) (h : s.egcdInv) : (egcdIter s).loopInv := by
  by_cases hRB : s.RB = 0
  · exact (egcdIter_endsFrom hRB).loopInv
  · rw [egcdIter_pass hRB]; exact loopInv_of_egcd hseq (egcdInv_euclidPass h hRB)

/-! The engine's steps. -/

theorem startStep_loopInv {s : State} (hshape : s.shape) : (startStep s).loopInv := by
  unfold startStep
  cases hcmd : decode s.CMD with
  | error e => exact (raise_endsFrom ..).loopInv
  | ok i =>
    cases i with
    | egcd => exact egcdStart_loopInv hcmd
    | modexp => exact modexpStart_loopInv hcmd
    | modinv => exact modinvStart_loopInv hshape hcmd
    | privkey => exact privkeyStart_loopInv hcmd

theorem engineStep_loopInv {s : State} (h : s.Inv) : (engineStep s).loopInv := by
  cases hb : s.BUSY with
  | false => rw [engineStep_idle hb]; exact ⟨h.modexp, h.egcd⟩
  | true =>
    cases hs : s.SEQ with
    | IDLE => exact absurd hs (h.seq_ne_idle hb)
    | START => rw [engineStep_start hb hs]; exact startStep_loopInv h.shape
    | MODEXP_ITER => rw [engineStep_modexp hb hs]; exact modexpIter_loopInv hs (h.modexp hs)
    | EGCD_ITER => rw [engineStep_egcd hb hs]; exact egcdIter_loopInv hs (h.egcd hs)

theorem EndsFrom.inv {s t : State} (h : EndsFrom s t) (hs : s.shape) : t.Inv :=
  .of_idle (h.shape hs) h.seq h.busy fun he => ⟨h.done, h.error he⟩

theorem State.Inv.engineStep {s : State} (h : s.Inv) : (engineStep s).Inv := by
  rcases engineStep_cases s with ⟨he, -⟩ | ⟨-, hE⟩ | ⟨hb, hW, hseq⟩
  · rw [he]; exact h
  · exact hE.inv h.shape
  · obtain ⟨hdone, herr, hzero⟩ := h.busy hb
    exact .of_busy (hW.shape h.shape) (by rcases hseq with hq | hq <;> simp [hq]) (hW.busy.trans hb)
      (hW.done.trans hdone) (hW.err.trans herr) (hW.zeroResults hzero) (engineStep_loopInv h)

/-! The host's and the reset's steps. -/

theorem State.Inv.accept {s : State} (h : s.Inv) (v : Word) : (accept s v).Inv :=
  .of_busy (shape_accept h.shape v) (by simp) rfl rfl rfl (accept_zeroResults s v) (loopInv_of_not_loop (.inr rfl))

/-- A write of an operand's limb while idle leaves the results and STATUS alone. -/
theorem State.Inv.setBig {s : State} (h : s.Inv) (hb : s.BUSY = false) {X : BigReg} (hX : X.isOperand = true)
    {ws : List Word} (hws : ws.length = s.L) : (s.setBig X ws).Inv := by
  refine .of_idle (shape_setBig h.shape hws) (by rw [setBig_SEQ]; exact h.seq_idle hb) (by rw [setBig_BUSY]; exact hb) ?_
  have hzero : (s.setBig X ws).zeroResults ↔ s.zeroResults := by
    cases X with
    | A | B | C => rfl
    | R0 | R1 | R2 => cases hX
  rw [setBig_ERR, setBig_DONE, hzero]
  exact h.error

theorem inv_resetOf {L : Nat} (hL : Config.legalLimbs L = true) : (State.resetOf L).Inv :=
  .of_idle (shape_resetOf hL) rfl rfl fun he => absurd rfl he

theorem State.Inv.resetInput {s : State} (h : s.Inv) : (resetInput s).Inv := (inv_resetOf h.shape.1).withHost _ _

/-- Settles O13: the reset state is idle, without an error, and its registers have the build's length. -/
theorem resetMeetsTheInvariant : Obligations.ResetMeetsTheInvariant :=
  ⟨inv_resetOf (by decide), fun _ => inv_resetOf⟩

/-- Settles O14: each of the six effects of a step keeps the invariant; the engine's work keeps it by the loops' own parts. -/
theorem everyStepKeepsTheInvariant : Obligations.EveryStepKeepsTheInvariant := by
  intro s t h hstep
  have hturns (ts : List Turn) : (s.withTurns ts).Inv := h.withHost ts s.reads
  cases step_effect hstep with
  | hostOnly ts rs => exact h.withHost ts rs
  | acceptance => exact (hturns _).accept _
  | @limbWrite _ ts _ _ X _ _ _ hb hX => exact (hturns ts).setBig hb hX (List.length_set.trans (h.shape.2 X))
  | reset => exact (hturns _).resetInput
  | completion _ _ hE => exact hE.inv (hturns _).shape
  | work => exact (hturns _).engineStep

end Sys2Proof.Machine
end

section
/-! What one step changes: the operands, the results, BUSY and DONE, INFO. Each is read off the six effects of a step. -/

namespace Sys2Proof.Machine

theorem big_withHost (s : State) (ts : List Turn) (rs : List Word) (X : BigReg) : (s.withHost ts rs).big X = s.big X := by
  cases X <;> rfl

theorem big_accept_operand (s : State) (v : Word) {X : BigReg} (hX : X.isOperand = true) : (accept s v).big X = s.big X := by
  cases X with
  | A | B | C => rfl
  | R0 | R1 | R2 => cases hX

theorem big_resetInput (s : State) (X : BigReg) : (resetInput s).big X = List.replicate s.L 0#32 := by
  cases X <;> rfl

theorem resetInput_zeroResults (s : State) : (resetInput s).zeroResults := by
  simp [State.zeroResults, State.x]

/-- Settles O15: of the six effects of a step only the limb write and the reset touch an operand. -/
theorem onlyTheHostWritesOperands : Obligations.OnlyTheHostWritesOperands := by
  intro s t X hX hstep
  cases step_effect hstep with
  | hostOnly ts rs => exact .inl (big_withHost s ts rs X)
  | acceptance => exact .inl (by rw [big_accept_operand _ _ hX, big_withTurns])
  | @limbWrite u ts addr v Y k hturns hwrites hb hY hk haddr =>
    by_cases hXY : X = Y
    · subst hXY
      exact .inr (.inr ⟨u, ts, addr, v, k, hturns, hwrites, hb, hk, haddr, big_setBig_same ..⟩)
    · exact .inl (by rw [big_setBig_ne _ _ hXY, big_withTurns])
  | reset hturns => exact .inr (.inl ⟨_, hturns, big_resetInput ..⟩)
  | completion _ _ hE => exact .inl (by rw [hE.big_operand hX, big_withTurns])
  | work _ _ hW => exact .inl (by rw [hW.big, big_withTurns])

/-- A write of an operand leaves the three results alone. -/
theorem results_setBig_operand (s : State) {X : BigReg} (hX : X.isOperand = true) (ws : List Word) :
    (s.setBig X ws).R0 = s.R0 ∧ (s.setBig X ws).R1 = s.R1 ∧ (s.setBig X ws).R2 = s.R2 := by
  cases X with
  | A | B | C => exact ⟨rfl, rfl, rfl⟩
  | R0 | R1 | R2 => cases hX

/-- Settles O16: the three effects that touch a result are the acceptance, the completion and the reset. -/
theorem resultsChangeAtThreeMomentsOnly : Obligations.ResultsChangeAtThreeMomentsOnly := by
  refine ⟨fun s h hb => (h.busy hb).2.2, fun s t _ hstep => ?_⟩
  cases step_effect hstep with
  | hostOnly => exact .inl ⟨rfl, rfl, rfl⟩
  | acceptance _ _ hb => exact .inr (.inl ⟨hb, rfl, accept_zeroResults ..⟩)
  | limbWrite _ _ _ hX => exact .inl (results_setBig_operand _ hX _)
  | reset hturns => exact .inr (.inr (.inr ⟨⟨_, hturns⟩, resetInput_zeroResults _⟩))
  | completion _ hb hE => exact .inr (.inr (.inl ⟨hb, hE.busy, hE.done, hE.error⟩))
  | work _ _ hW => exact .inl ⟨hW.R0, hW.R1, hW.R2⟩

/-- The four clauses on BUSY and DONE, for a step that leaves both bits as they were: neither rises nor falls. -/
theorem busyDone_unmoved {s t : State} {P Q R : Prop} (hbusy : t.BUSY = s.BUSY) (hdone : t.DONE = s.DONE) :
    (s.BUSY = false → t.BUSY = true → P) ∧ (s.BUSY = true → t.BUSY = false → Q) ∧
    (s.DONE = false → t.DONE = true → s.BUSY = true ∧ t.BUSY = false) ∧ (s.DONE = true → t.DONE = false → R) := by
  rw [hbusy, hdone]
  simp +contextual

/-- Settles O17: BUSY rises at the acceptance, falls at the completion and at the reset; the other effects keep both bits. -/
theorem busyAndDoneChangeOnlyAsStated : Obligations.BusyAndDoneChangeOnlyAsStated := by
  intro s t hstep
  cases step_effect hstep with
  | hostOnly => exact busyDone_unmoved rfl rfl
  | @acceptance u ts v hturns hwrites hb =>
    have hcmd : ∃ u ts, s.turns = u :: ts ∧ u.writesCmd := ⟨u, ts, hturns, v, hwrites⟩
    exact ⟨fun _ _ => hcmd, by simp, by simp, fun _ _ => .inr ⟨hcmd, hb, rfl⟩⟩
  | limbWrite => exact busyDone_unmoved (setBig_BUSY ..) (setBig_DONE ..)
  | reset hturns => exact ⟨by simp, fun _ _ => .inl ⟨_, hturns⟩, by simp, fun _ _ => .inl ⟨_, hturns⟩⟩
  | completion hmoves hb hE =>
    exact ⟨by simp [hb], fun _ _ => .inr ⟨hmoves, hE.done⟩, fun _ _ => ⟨hb, hE.busy⟩, by simp [hE.done]⟩
  | work _ _ hW => exact busyDone_unmoved hW.busy hW.done

/-- L belongs to the build (00_scope.md R4). -/
theorem step_L {s t : State} (hstep : step s = .next t) : t.L = s.L := by
  cases step_effect hstep with
  | hostOnly => rfl
  | acceptance => rfl
  | limbWrite => exact setBig_L ..
  | reset => rfl
  | completion _ _ hE => exact hE.L
  | work _ _ hW => exact hW.L

/-- Settles O48: INFO reads as L, which no effect of a step changes. -/
theorem infoIsConstant : Obligations.InfoIsConstant :=
  fun _ _ hstep => ⟨step_L hstep, info_congr (step_L hstep)⟩

end Sys2Proof.Machine
end

section
/-! The STATUS word, and the reset. -/

namespace Sys2Proof.Machine

/-- The fields of STATUS, and zeros elsewhere (10_state.md R16): the word depends on two bits and one of five codes alone,
so these are twenty closed facts. -/
theorem status_fields (s : State) :
    s.status.getLsbD 0 = s.BUSY ∧ s.status.getLsbD 1 = s.DONE ∧ s.status.extractLsb' 2 2 = 0 ∧
    s.status.extractLsb' 4 4 = s.ERR.code ∧ s.status.extractLsb' 8 24 = 0 := by
  unfold State.status
  cases s.BUSY <;> cases s.DONE <;> cases s.ERR <;> decide

theorem status_eq_zero {s : State} (hb : s.BUSY = false) (hd : s.DONE = false) (he : s.ERR = .noError) : s.status = 0 := by
  rw [State.status, hb, hd, he]; decide

/-- Settles O10: STATUS is made of its fields; word index 1 is no word a write reaches; reset clears the fields. -/
theorem statusFields : Obligations.StatusFields :=
  ⟨status_fields, fun _ v => hostWrite_elsewhere v (by decide) (.inl (by decide)), fun _ => status_eq_zero rfl rfl rfl⟩

/-- Settles O11: the invariant leaves one STATUS while busy, two while idle without an error, and one for each error. -/
theorem statusIsOneOfSeven : Obligations.StatusIsOneOfSeven := by
  intro s h
  cases hb : s.BUSY with
  | true =>
    obtain ⟨hd, he, -⟩ := h.busy hb
    have hstatus : s.status = 0x01 := by rw [State.status, hb, hd, he]; decide
    simp [legalStatus, hstatus, hd, he]
  | false =>
    cases he : s.ERR with
    | noError =>
      cases hd : s.DONE with
      | false => simp [legalStatus, status_eq_zero hb hd he]
      | true =>
        have hstatus : s.status = 0x02 := by rw [State.status, hb, hd, he]; decide
        simp [legalStatus, hstatus]
    | invalidInput | contractViolation | illegalCmd | range =>
      obtain ⟨hd, hzero⟩ := h.error (by simp [he])
      rw [State.status, hb, hd, he]
      unfold legalStatus
      exact ⟨by decide, by decide, fun _ => rfl, by decide, by decide, fun _ => ⟨by decide, hzero⟩⟩

/-- Settles O12: the reset input puts the reset state's values in every field but the agents' own, and an idle engine has no
step enabled. -/
theorem resetLeavesTheSpecifiedValues : Obligations.ResetLeavesTheSpecifiedValues := by
  constructor
  · intro s ts hturns
    exact ⟨resetInput (s.withTurns ts), by rw [step_cons hturns]; rfl, rfl, big_resetInput _, rfl, rfl, rfl, rfl,
      status_eq_zero rfl rfl rfl, rfl, rfl, rfl, rfl, engineStep_idle rfl⟩
  · intro L hL
    exact ⟨rfl, fun X => by cases X <;> rfl, rfl, status_eq_zero rfl rfl rfl, info_toNat hL, rfl, engineStep_idle rfl⟩

end Sys2Proof.Machine
end

section
/-! The frames of the commands: what the two loops and the START steps leave of the working registers they do not load. -/

namespace Sys2Proof.Machine

/-- The working registers of the square-and-multiply loop alone; MD is shared with the inverse commands (10_state.md R25). -/
def State.modexpWork (s : State) : Int × Int × Int × Nat := (s.ACC, s.BS, s.EX, s.I)

/-- Either finish of the Euclidean loop is a normal or an error completion (41_egcd.md R94, 43_modinv.md R117). -/
theorem egcdIter_completes {s : State} (hRB : s.RB = 0) :
    (∃ r0 r1 r2, egcdIter s = complete s r0 r1 r2) ∨ ∃ e, egcdIter s = raise s e := by
  rw [egcdIter_finish hRB]
  cases s.FIN with
  | FIN_EGCD =>
    rcases egcdFinish_cases s with ⟨-, -, -, h⟩ | ⟨-, h⟩
    · exact .inl ⟨_, _, _, h⟩
    · exact .inr ⟨_, h⟩
  | FIN_INV =>
    rcases invFinish_cases s with ⟨-, h⟩ | ⟨-, -, h⟩ | ⟨-, -, h⟩
    · exact .inr ⟨_, h⟩
    · exact .inl ⟨_, _, _, h⟩
    · exact .inr ⟨_, h⟩

theorem egcdRest_work (s : State) : (egcdRest s).modexpWork = s.modexpWork ∧ (egcdRest s).MD = s.MD := by
  by_cases hs : s.SEQ = .EGCD_ITER
  · rw [egcdRest_eq hs]
    rcases egcdIter_completes (egcdRest_exit_RB s) with ⟨r0, r1, r2, h⟩ | ⟨e, h⟩ <;> rw [h] <;> exact ⟨rfl, rfl⟩
  · rw [egcdRest_stop hs]; exact ⟨rfl, rfl⟩

theorem egcdStart_work (s : State) : (egcdStart s).modexpWork = s.modexpWork ∧ (egcdStart s).MD = s.MD := by
  unfold egcdStart
  split <;> exact ⟨rfl, rfl⟩

theorem modinvStart_work (s : State) : (modinvStart s).modexpWork = s.modexpWork := by
  rcases modinvStart_cases s with ⟨-, h⟩ | ⟨-, h⟩ <;> rw [h] <;> rfl

theorem privkeyStart_work (s : State) : (privkeyStart s).modexpWork = s.modexpWork := by
  rcases privkeyStart_cases s with ⟨-, h⟩ | ⟨-, -, h⟩ | ⟨-, -, h⟩ <;> rw [h] <;> rfl

/-- EGCD, MODINV and PRIVKEY leave the square-and-multiply registers as they were, and EGCD leaves MD. -/
theorem exec_euclid_work {i : Instr} {s t : State} (hi : i = .egcd ∨ i = .modinv ∨ i = .privkey) (h : exec i s = .next t) :
    t.modexpWork = s.modexpWork ∧ (i = .egcd → t.MD = s.MD) := by
  rcases hi with rfl | rfl | rfl <;> obtain rfl := Host.Outcome.next.inj h
  · obtain ⟨hwork, hMD⟩ := egcdRest_work (egcdStart s)
    obtain ⟨hwork', hMD'⟩ := egcdStart_work s
    exact ⟨hwork.trans hwork', fun _ => hMD.trans hMD'⟩
  · exact ⟨(egcdRest_work _).1.trans (modinvStart_work s), by simp⟩
  · exact ⟨(egcdRest_work _).1.trans (privkeyStart_work s), by simp⟩

theorem modexpRest_work (s : State) : (modexpRest s).euclidVars = s.euclidVars ∧ (modexpRest s).FIN = s.FIN := by
  by_cases hs : s.SEQ = .MODEXP_ITER
  · rw [modexpRest_eq hs]; exact ⟨rfl, rfl⟩
  · rw [modexpRest_stop hs]; exact ⟨rfl, rfl⟩

theorem modexpStart_work (s : State) : (modexpStart s).euclidVars = s.euclidVars ∧ (modexpStart s).FIN = s.FIN := by
  unfold modexpStart
  split <;> exact ⟨rfl, rfl⟩

/-- MODEXP leaves the registers of the Euclidean loop as they were. -/
theorem exec_modexp_work {s t : State} (h : exec .modexp s = .next t) : t.euclidVars = s.euclidVars ∧ t.FIN = s.FIN := by
  obtain rfl := Host.Outcome.next.inj h
  obtain ⟨hvars, hFIN⟩ := modexpRest_work (modexpStart s)
  obtain ⟨hvars', hFIN'⟩ := modexpStart_work s
  exact ⟨hvars.trans hvars', hFIN.trans hFIN'⟩

theorem exec_next_endsFrom {i : Instr} {s t : State} (h : exec i s = .next t) : EndsFrom s t := by
  obtain ⟨t', ht', hE⟩ := exec_endsFrom i s
  rw [h] at ht'
  obtain rfl := Host.Outcome.next.inj ht'
  exact hE

/-- Settles O41: the command ends by one completion, whose frame this is, and its loop has no register of the
square-and-multiply loop. -/
theorem euclidCommandsFrame : Obligations.EuclidCommandsFrame := by
  intro i s t hi h
  have hE := exec_next_endsFrom h
  obtain ⟨hwork, hMD⟩ := exec_euclid_work hi h
  obtain ⟨hACC, hBS, hEX, hI⟩ : t.ACC = s.ACC ∧ t.BS = s.BS ∧ t.EX = s.EX ∧ t.I = s.I := by
    simpa [State.modexpWork] using hwork
  exact ⟨hE.A, hE.B, hE.C, hE.CMD, hE.L, hE.turns, hE.reads, fun _ => hE.hostRead_eq, hACC, hBS, hEX, hI, hMD⟩

/-- Settles O42: MODEXP ends by one completion, whose frame this is, and its loop has no register of the Euclidean loop. -/
theorem modexpFrame : Obligations.ModexpFrame := by
  intro s t h
  have hE := exec_next_endsFrom h
  obtain ⟨hvars, hFIN⟩ := exec_modexp_work h
  obtain ⟨hRA, hRB, hSA, hSB, hTA, hTB⟩ := EuclidVars.mk.inj hvars
  exact ⟨hE.A, hE.B, hE.C, hE.CMD, hE.L, hE.turns, hE.reads, fun _ => hE.hostRead_eq, hRA, hRB, hSA, hSB, hTA, hTB, hFIN⟩

end Sys2Proof.Machine
end

section
/-! The host port: what a read answers at each word index, and what the write of one limb leaves as it was. -/

namespace Sys2Proof.Machine

theorem shape_L_le {s : State} (h : s.shape) : s.L ≤ 256 := (of_decide_eq_true h.1).2

/-- What the host reads does not depend on the turns to come nor on the words already read. -/
@[simp] theorem hostRead_withHost (s : State) (ts : List Turn) (rs : List Word) (addr : Addr) :
    hostRead (s.withHost ts rs) addr = hostRead s addr :=
  hostRead_congr rfl rfl (fun _ => rfl) fun X _ _ => big_withHost s ts rs X

@[simp] theorem hostRead_withTurns (s : State) (ts : List Turn) (addr : Addr) :
    hostRead (s.withTurns ts) addr = hostRead s addr := hostRead_withHost s ts s.reads addr

theorem setBig_withTurns (s : State) (ts : List Turn) (X : BigReg) (ws : List Word) :
    (s.withTurns ts).setBig X ws = (s.setBig X ws).withTurns ts := by cases X <;> rfl

/-- Limb `k` of a register is bits `32k+31 : 32k` of the integer the register holds (20_memory.md R43). -/
theorem getD_eq_ofInt_sextLimbs (ws : List Word) {k : Nat} (hk : k < ws.length) :
    ws.getD k 0#32 = BitVec.ofInt 32 (sextLimbs ws / 2 ^ (32 * k)) := by
  have h := encLimbs_getD ws.length k (sextLimbs ws) hk
  rw [encLimbs_sextLimbs] at h
  exact_mod_cast h

theorem step_read {s : State} {addr : Addr} {ts : List Turn} (hturns : s.turns = .read addr :: ts) :
    step s = .next (s.withHost ts (hostRead s addr :: s.reads)) := by
  rw [step_cons hturns, takeTurn, readTurn, hostRead_withTurns]
  rfl

theorem step_write {s : State} {addr : Addr} {v : Word} {ts : List Turn} (hturns : s.turns = .write addr v :: ts) :
    step s = .next (hostWrite (s.withTurns ts) addr v) := step_cons hturns

/-- The write of one limb of an operand register while idle (20_memory.md R46). -/
theorem step_write_limb {s : State} {addr : Addr} {v : Word} {ts : List Turn} {X : BigReg} {k : Nat}
    (hturns : s.turns = .write addr v :: ts) (hidle : s.BUSY = false) (haddr : addr.toNat = 0x100 * (X.number + 1) + k)
    (hk : k < s.L) (hL : s.L ≤ 256) (hX : X.isOperand = true) :
    step s = .next ((s.setBig X ((s.big X).set k v)).withTurns ts) := by
  rw [step_write hturns, hostWrite_limb (s := s.withTurns ts) v hidle haddr hk hL hX, setBig_withTurns, big_withTurns]

/-- Replacing limb `k` of a register shows at no other word index than that limb's. -/
theorem hostRead_setBig_set_ne {s : State} {X : BigReg} {k : Nat} {v : Word} {a : Addr} (hL : s.L ≤ 256)
    (ha : a.toNat ≠ 0x100 * (X.number + 1) + k) :
    hostRead (s.setBig X ((s.big X).set k v)) a = hostRead s a := by
  by_cases hwin : 0x100 * (X.number + 1) ≤ a.toNat ∧ a.toNat < 0x100 * (X.number + 2)
  · obtain ⟨j, hj⟩ := Nat.exists_eq_add_of_le hwin.1
    by_cases hjL : j < s.L
    · have hkj : k ≠ j := by omega
      rw [hostRead_limb hj (by rwa [setBig_L]) (by rwa [setBig_L]), hostRead_limb hj hjL hL, big_setBig_same]
      simp [List.getD_eq_getElem?_getD, List.getElem?_set_ne hkj]
    · have hres : s.L ≤ a.toNat % 0x100 := by omega
      rw [hostRead_reserved (by omega) (.inr (.inr hres)), hostRead_reserved (by omega) (.inr (.inr (by rwa [setBig_L])))]
  · refine hostRead_congr (setBig_L ..) (setBig_CMD ..)
      (fun _ => status_congr (setBig_BUSY ..) (setBig_DONE ..) (setBig_ERR ..)) fun Y hlo hhi => ?_
    exact big_setBig_ne _ _ (by rintro rfl; exact hwin ⟨hlo, hhi⟩)

/-- Settles O8: a read turn returns `hostRead`, which is the word, the limb or the zero the map has at the index. -/
theorem hostReadFollowsTheMap : Obligations.HostReadFollowsTheMap := by
  refine ⟨fun s addr ts hturns => step_read hturns, fun s h => ?_⟩
  have hL := shape_L_le h
  refine ⟨hostRead_cmd s, hostRead_status s, info_toNat hL, fun addr X k haddr hk => ?_, fun addr => hostRead_reserved⟩
  rw [hostRead_limb haddr hk hL]
  exact getD_eq_ofInt_sextLimbs _ (by rwa [h.2 X])

/-- Settles O9: a write is dropped, accepted, stored in one limb or ignored, by BUSY and the word index. -/
theorem hostWriteStoresOneLimb : Obligations.HostWriteStoresOneLimb := by
  intro s addr v ts h hturns
  have hL := shape_L_le h
  refine ⟨fun hbusy => ?_, fun hidle h0 => ?_, fun hidle X k haddr hk hX => ?_, fun _ h0 helse => ?_⟩
  · rw [step_write hturns, hostWrite_busy (s := s.withTurns ts) hbusy]
  · subst h0
    exact (step_write hturns).trans (congrArg _ (hostWrite_cmd (s := s.withTurns ts) hidle v))
  · have hlen : ((s.big X).set k v).length = s.L := List.length_set.trans (h.2 X)
    refine ⟨_, step_write_limb hturns hidle haddr hk hL hX, ?_, ?_, ?_, fun a ha => ?_⟩
    · rw [big_withTurns, big_setBig_same]
    · rw [big_withTurns, big_setBig_same, hlen]
    · rw [hostRead_withTurns, hostRead_limb haddr (by rwa [setBig_L]) (by rwa [setBig_L]), big_setBig_same]
      simp [List.getD_eq_getElem?_getD, h.2 X, hk]
    · rw [hostRead_withTurns, hostRead_setBig_set_ne hL]
      exact fun hsame => ha (BitVec.eq_of_toNat_eq (hsame.trans haddr.symm))
  · rw [step_write hturns, hostWrite_elsewhere (s := s.withTurns ts) v h0 helse]

/-- Settles O19: while DONE is 1 the engine is idle, so of the six effects of a step only the agents' own moves and the
write of an operand are left. -/
theorem resultsStayUntilTheNextCommand : Obligations.ResultsStayUntilTheNextCommand := by
  intro s t h hdone hstep hquiet
  have hidle : s.BUSY ≠ true := fun hbusy => by simp [(h.busy hbusy).1] at hdone
  cases step_effect hstep with
  | hostOnly => exact ⟨hdone, rfl, rfl, rfl, rfl, rfl⟩
  | acceptance hturns hwrites => exact absurd ⟨_, hwrites⟩ (hquiet _ _ hturns).1
  | @limbWrite _ ts _ _ X _ _ _ _ hX =>
    obtain ⟨h0, h1, h2⟩ := results_setBig_operand (s.withTurns ts) hX _
    exact ⟨(setBig_DONE ..).trans hdone, status_congr (setBig_BUSY ..) (setBig_DONE ..) (setBig_ERR ..), h0, h1, h2,
      setBig_CMD ..⟩
  | reset hturns => exact absurd rfl (hquiet _ _ hturns).2
  | completion _ hbusy => exact absurd hbusy hidle
  | work _ hbusy => exact absurd hbusy hidle

end Sys2Proof.Machine
end

section
/-! Which turns the machine refuses: the bus accesses that are not one word of the block (20_memory.md R40, R44, R49). -/

namespace Sys2Proof.Machine

/-- A bus access of one aligned word of the register space reaches a word index; any other is refused by one of two names. -/
theorem busWord_outcome (byteAddr bytes : Nat) :
    ((bytes = 4 ∧ byteAddr % 4 = 0 ∧ byteAddr / 4 < 2048) ∧ ∃ addr, busWord byteAddr bytes = .ok addr) ∨
    (¬(bytes = 4 ∧ byteAddr % 4 = 0 ∧ byteAddr / 4 < 2048) ∧
      ∃ r, busWord byteAddr bytes = .error r ∧ (r = .notOneWord ∨ r = .outsideRegisterSpace)) := by
  rw [← reachesBlock_bus]
  cases hword : busWord byteAddr bytes with
  | ok addr => exact .inl ⟨⟨addr, rfl⟩, addr, rfl⟩
  | error r => exact .inr ⟨by simp, r, rfl, (busWord_error hword).imp And.left And.left⟩

/-- A turn that reaches the block answers a next state; every other turn is refused by one of two names. -/
theorem takeTurn_outcome (u : Turn) (s : State) :
    (u.reachesBlock = true ∧ ∃ t, takeTurn u s = .next t) ∨
    (u.reachesBlock = false ∧ ∃ r, takeTurn u s = .refused r ∧ (r = .notOneWord ∨ r = .outsideRegisterSpace)) := by
  cases u with
  | read | write | wait | reset | engine => exact .inl ⟨rfl, _, rfl⟩
  | command =>
    obtain ⟨t, ht, -⟩ := commandStep_cases s
    exact .inl ⟨rfl, t, ht⟩
  | busRead byteAddr bytes | busWrite byteAddr bytes =>
    rcases busWord_outcome byteAddr bytes with ⟨hreach, addr, hword⟩ | ⟨hreach, r, hword, hr⟩
    · exact .inl ⟨decide_eq_true hreach, by simp [takeTurn, hword]⟩
    · exact .inr ⟨decide_eq_false hreach, r, by simp [takeTurn, hword], hr⟩

/-- A step answers a next state when the turn at the head, if there is one, reaches the block, and is refused otherwise. -/
theorem step_outcome (s : State) :
    ((∀ u ts, s.turns = u :: ts → u.reachesBlock = true) ∧ ∃ t, step s = .next t) ∨
    (¬(∀ u ts, s.turns = u :: ts → u.reachesBlock = true) ∧
      ∃ r, step s = .refused r ∧ (r = .notOneWord ∨ r = .outsideRegisterSpace)) := by
  cases hturns : s.turns with
  | nil => exact .inl ⟨by simp, _, step_nil hturns⟩
  | cons u ts =>
    rw [step_cons hturns]
    rcases takeTurn_outcome u (s.withTurns ts) with ⟨hreach, hnext⟩ | ⟨hreach, hrefused⟩
    · exact .inl ⟨by simpa using hreach, hnext⟩
    · exact .inr ⟨by simpa using hreach, hrefused⟩

/-- Settles O20: the two outcomes of a step exclude each other, and neither is a fault. -/
theorem onlyMalformedBusAccessesStop : Obligations.OnlyMalformedBusAccessesStop := by
  intro s
  rcases step_outcome s with ⟨hreach, t, ht⟩ | ⟨hreach, r, hr, hname⟩
  · exact ⟨iff_of_true ⟨t, ht⟩ hreach, by simp [ht], by simp [ht]⟩
  · exact ⟨iff_of_false (by simp [hr]) hreach, by simp [hr], by simpa [hr] using hname⟩

theorem busWord_notOneWord {byteAddr bytes : Nat} (h : bytes ≠ 4 ∨ byteAddr % 4 ≠ 0) :
    busWord byteAddr bytes = .error .notOneWord := if_neg (by tauto)

theorem step_withTurns_cons (s : State) (u : Turn) (ts : List Turn) :
    step (s.withTurns (u :: ts)) = takeTurn u (s.withTurns ts) := step_cons rfl

/-- Settles O21: the word index of byte address `4*i` is `i`, and an access of another shape has no word index. -/
theorem busAccessIsAWordAccess : Obligations.BusAccessIsAWordAccess := by
  have hword (addr : Addr) : busWord (4 * addr.toNat) 4 = .ok addr := busWord_ok.mpr ⟨rfl, rfl⟩
  refine ⟨fun s addr ts => ?_, fun s addr v ts => ?_, fun s a n v ts h => ⟨?_, ?_⟩⟩
  · simp only [step_withTurns_cons, takeTurn, hword]
  · simp only [step_withTurns_cons, takeTurn, hword]
  · simp only [step_withTurns_cons, takeTurn, busWord_notOneWord h]
  · simp only [step_withTurns_cons, takeTurn, busWord_notOneWord h]

end Sys2Proof.Machine
end

section
/-! An iteration step and the write of an operand register commute: the loops read working registers alone. -/

namespace Sys2Proof.Machine

theorem complete_setBig (s : State) {X : BigReg} (hX : X.isOperand = true) (ws : List Word) (r0 r1 r2 : Int) :
    complete (s.setBig X ws) r0 r1 r2 = (complete s r0 r1 r2).setBig X ws := by
  cases X with
  | A | B | C => rfl
  | R0 | R1 | R2 => cases hX

theorem raise_setBig (s : State) {X : BigReg} (hX : X.isOperand = true) (ws : List Word) (e : Err) :
    raise (s.setBig X ws) e = (raise s e).setBig X ws := by
  cases X with
  | A | B | C => rfl
  | R0 | R1 | R2 => cases hX

theorem modexpIter_setBig (s : State) {X : BigReg} (hX : X.isOperand = true) (ws : List Word) :
    modexpIter (s.setBig X ws) = (modexpIter s).setBig X ws := by
  by_cases hI : s.I = 0
  · rw [modexpIter_finish (by rwa [setBig_I]), modexpIter_finish hI, complete_setBig s hX, setBig_ACC]
  · rw [modexpIter_pass (by rwa [setBig_I]), modexpIter_pass hI]
    cases X <;> rfl

theorem egcdFinish_setBig (s : State) {X : BigReg} (hX : X.isOperand = true) (ws : List Word) :
    egcdFinish (s.setBig X ws) = (egcdFinish s).setBig X ws := by
  simp only [egcdFinish, setBig_L, setBig_RA, setBig_SA, setBig_TA, complete_setBig s hX, raise_setBig s hX]
  split <;> rfl

theorem invFinish_setBig (s : State) {X : BigReg} (hX : X.isOperand = true) (ws : List Word) :
    invFinish (s.setBig X ws) = (invFinish s).setBig X ws := by
  simp only [invFinish, setBig_L, setBig_RA, setBig_SA, setBig_MD, complete_setBig s hX, raise_setBig s hX]
  split
  · rfl
  · split <;> rfl

theorem egcdIter_setBig (s : State) {X : BigReg} (hX : X.isOperand = true) (ws : List Word) :
    egcdIter (s.setBig X ws) = (egcdIter s).setBig X ws := by
  by_cases hRB : s.RB = 0
  · rw [egcdIter_finish (by rwa [setBig_RB]), egcdIter_finish hRB, setBig_FIN]
    cases s.FIN with
    | FIN_EGCD => exact egcdFinish_setBig s hX ws
    | FIN_INV => exact invFinish_setBig s hX ws
  · rw [egcdIter_pass (by rwa [setBig_RB]), egcdIter_pass hRB]
    cases X <;> rfl

/-- Settles O47: while idle no step is enabled, and while busy the iteration step of either loop commutes with replacing an
operand. -/
theorem operandsAreReadInTheStartStepOnly : Obligations.OperandsAreReadInTheStartStepOnly := by
  intro s X ws hX hseq
  cases hb : s.BUSY with
  | false => rw [engineStep_idle hb, engineStep_idle (by rwa [setBig_BUSY])]
  | true =>
    have hb' : (s.setBig X ws).BUSY = true := by rwa [setBig_BUSY]
    rcases hseq with hs | hs
    · rw [engineStep_modexp hb hs, engineStep_modexp hb' (by rwa [setBig_SEQ]), modexpIter_setBig s hX]
    · rw [engineStep_egcd hb hs, engineStep_egcd hb' (by rwa [setBig_SEQ]), egcdIter_setBig s hX]

end Sys2Proof.Machine
end

section
/-! The script lines SET and GET (30_encoding.md R67), as runs of limb writes and of reads. -/

namespace Sys2Proof.Machine

/-- The word index of a limb is inside the register's window (20_memory.md R42). -/
theorem limbAddr_toNat (X : BigReg) {k : Nat} (hk : k < 256) : (limbAddr X k).toNat = 0x100 * (X.number + 1) + k := by
  have hX := number_lt X
  rw [limbAddr, BitVec.toNat_ofNat]
  omega

/-- The writes of SET from limb `pre.length` on replace the rest of the register, limb by limb. -/
theorem run_setFrom {X : BigReg} (hX : X.isOperand = true) (ts : List Turn) (ws : List Word) :
    ∀ (s : State) (pre old : List Word), s.BUSY = false → s.L ≤ 256 → s.big X = pre ++ old → old.length = ws.length →
      pre.length + ws.length ≤ s.L → s.turns = setFrom X pre.length ws ++ ts →
      Host.Core.run Sys2Proof.core ws.length s = .next ((s.setBig X (pre ++ ws)).withTurns ts) := by
  induction ws with
  | nil =>
    intro s pre old _ _ hbig hold _ hturns
    obtain rfl := List.length_eq_zero_iff.mp hold
    obtain rfl : s.turns = ts := hturns
    rw [← hbig, setBig_big, withTurns_self]
    rfl
  | cons w ws ih =>
    intro s pre old hidle hL hbig hold hlen hturns
    obtain ⟨o, old, rfl⟩ := List.exists_cons_of_length_eq_add_one hold
    rw [List.length_cons] at hlen
    have hk : pre.length < s.L := by omega
    have hset : (s.big X).set pre.length w = (pre ++ [w]) ++ old := by simp [hbig]
    have hstep := step_write_limb hturns hidle (limbAddr_toNat X (by omega)) hk hL hX
    rw [hset] at hstep
    rw [List.length_cons, run_next _ hstep, ih _ (pre ++ [w]) old]
    · rw [setBig_withTurns, setBig_setBig, withTurns_withTurns, List.append_assoc, List.singleton_append]
    · rw [withTurns_BUSY, setBig_BUSY, hidle]
    · rwa [withTurns_L, setBig_L]
    · rw [big_withTurns, big_setBig_same]
    · simpa using hold
    · rw [withTurns_L, setBig_L, List.length_append, List.length_singleton]
      omega
    · rw [withTurns_turns, List.length_append, List.length_singleton]
      rfl

/-- Settles O49: the L limb writes replace the whole register by the encoding of the integer, which reads back. -/
theorem scriptSetLoadsTheRegister : Obligations.ScriptSetLoadsTheRegister := by
  intro s X z ts h hidle hwf hturns
  obtain ⟨hX, hfits⟩ : X.isOperand = true ∧ Config.fits s.L z := by simpa [Line.wf] using hwf
  have hlen := encLimbs_length s.L z
  have hrun := run_setFrom hX ts (encLimbs s.L z) s [] (s.big X) hidle (shape_L_le h) rfl (by rw [h.2 X, hlen])
    (by simp) hturns
  rw [hlen, List.nil_append] at hrun
  refine ⟨_, hrun, ?_, ?_, ?_⟩
  · rw [big_withTurns, big_setBig_same]
  · rw [big_withTurns, big_setBig_same, hlen]
  · rw [x_withTurns, State.x, big_setBig_same, sextLimbs_encLimbs (shape_L_pos h) hfits]

/-- A run of reads returns the words at their indices, the last one newest, and changes nothing of the engine. -/
theorem run_reads (ts : List Turn) (addrs : List Addr) :
    ∀ s : State, s.turns = addrs.map .read ++ ts →
      Host.Core.run Sys2Proof.core addrs.length s =
        .next (s.withHost ts ((addrs.map (hostRead s)).reverse ++ s.reads)) := by
  induction addrs with
  | nil =>
    intro s hturns
    obtain rfl : s.turns = ts := hturns
    rfl
  | cons addr addrs ih =>
    intro s hturns
    have hsame (us : List Turn) (rs : List Word) : hostRead (s.withHost us rs) = hostRead s :=
      funext fun a => hostRead_withHost s us rs a
    rw [List.length_cons, run_next _ (step_read hturns), ih _ rfl, hsame, List.map_cons, List.reverse_cons,
      List.append_assoc, List.singleton_append]
    rfl

/-- The words at a register's L limb indices are its limbs, limb 0 first. -/
theorem map_hostRead_limbAddr {s : State} (h : s.shape) (X : BigReg) :
    ((List.range s.L).map (limbAddr X)).map (hostRead s) = s.big X := by
  refine List.ext_getElem (by simp [h.2 X]) fun k _ hk => ?_
  have hkL : k < s.L := by rwa [h.2 X] at hk
  have hL := shape_L_le h
  rw [List.getElem_map, List.getElem_map, List.getElem_range, hostRead_limb (limbAddr_toNat X (by omega)) hkL hL,
    List.getD_eq_getElem _ _ hk]

/-- Settles O50: GET reads the words at the register's limb indices, which are its limbs. -/
theorem scriptGetReadsTheRegister : Obligations.ScriptGetReadsTheRegister := by
  intro s X ts h hturns
  refine ⟨s.big X, h.2 X, rfl, ?_⟩
  have hrun := run_reads ts ((List.range s.L).map (limbAddr X)) s (by rw [hturns, List.map_map]; rfl)
  rwa [map_hostRead_limbAddr h, List.length_map, List.length_range] at hrun

end Sys2Proof.Machine
end

section
/-! The command word and its two fields (30_encoding.md R60 to R62), and the decoder as the inverse of the encoder. -/

namespace Sys2Proof

theorem wordFields (i : Instr) : Laws.WordFields.Statement i :=
  match i with
  | .egcd => Laws.WordFields.egcd
  | .modexp => Laws.WordFields.modexp
  | .modinv => Laws.WordFields.modinv
  | .privkey => Laws.WordFields.privkey

theorem encode_toNat (i : Instr) : (encode i).toNat = (opcode i).toNat := by
  obtain ⟨-, -, -, htoNat, -⟩ := wordFields i
  exact htoNat

/-- The opcode map takes each code to its command (R62). -/
theorem decodeOp_opcode (i : Instr) : decodeOp (opcode i) = .ok i := by cases i <;> rfl

/-- No other code selects the command (R62). -/
theorem eq_opcode_of_decodeOp {op : BitVec 4} {i : Instr} (h : decodeOp op = .ok i) : op = opcode i := by
  unfold decodeOp at h
  split at h <;> cases h <;> exact BitVec.eq_of_toNat_eq ‹_›

/-- A word is its two fields (R60). -/
theorem zeroField_append_opField (w : Word) : zeroField w ++ opField w = w := BitVec.extractLsb'_append_extractLsb'

theorem decode_encode (i : Instr) : decode (encode i) = .ok i := by
  obtain ⟨-, hzero, hop, -⟩ := wordFields i
  rw [decode, if_pos hzero, hop, decodeOp_opcode]

theorem eq_encode_of_decode {w : Word} {i : Instr} (h : decode w = .ok i) : w = encode i := by
  unfold decode at h
  split at h
  case isTrue hzero => rw [← zeroField_append_opField w, hzero, eq_opcode_of_decodeOp h]; rfl
  case isFalse => cases h

theorem decode_eq_ok_iff {w : Word} {i : Instr} : decode w = .ok i ↔ w.toNat = (opcode i).toNat := by
  rw [← encode_toNat, BitVec.toNat_inj]
  exact ⟨eq_encode_of_decode, fun h => h ▸ decode_encode i⟩

/-- The codes of the commands are 1 to 4 (R62). -/
theorem exists_opcode_iff {n : Nat} : (∃ i, n = (opcode i).toNat) ↔ 1 ≤ n ∧ n ≤ 4 := by
  constructor
  · rintro ⟨i, rfl⟩
    obtain ⟨-, -, -, -, hbounds⟩ := wordFields i
    exact hbounds
  · rintro ⟨hlo, hhi⟩
    interval_cases n
    exacts [⟨.egcd, rfl⟩, ⟨.modexp, rfl⟩, ⟨.modinv, rfl⟩, ⟨.privkey, rfl⟩]

/-- The legal words are the numbers 1 to 4 (R61). -/
theorem exists_decode_iff {w : Word} : (∃ i, decode w = .ok i) ↔ 1 ≤ w.toNat ∧ w.toNat ≤ 4 := by
  simp only [decode_eq_ok_iff, exists_opcode_iff]

/-- Settles O2: the decoder undoes the encoder, and a word is determined by its two fields. -/
theorem encodeAndDecodeAgree : Obligations.EncodeAndDecodeAgree :=
  ⟨fun i _ => decode_encode i, fun _ _ => eq_encode_of_decode⟩

/-- Settles O1: the words of 95_test_vectors.md section 2.5 evaluate. -/
theorem opcodeWordsDecode : Obligations.OpcodeWordsDecode := by
  unfold Obligations.OpcodeWordsDecode
  decide

end Sys2Proof
end

section
/-! An illegal word: it is accepted like any other, and the START step, at both grains, ends it (30_encoding.md R61, R64). -/

namespace Sys2Proof.Machine

/-- An illegal word is rejected for some reason. -/
theorem exists_illegal {w : Word} (h : ∀ i, decode w ≠ .ok i) : ∃ e, decode w = .error e :=
  match hw : decode w with
  | .ok i => absurd hw (h i)
  | .error e => ⟨e, rfl⟩

theorem engineStep_illegal {s : State} {e : Illegal} (hb : s.BUSY = true) (hs : s.SEQ = .START)
    (hcmd : decode s.CMD = .error e) : engineStep s = raise s .illegalCmd := by
  rw [engineStep_start hb hs, startStep, hcmd]

theorem commandStep_illegal {s : State} {e : Illegal} (hb : s.BUSY = true) (hs : s.SEQ = .START)
    (hcmd : decode s.CMD = .error e) : commandStep s = .next (raise s .illegalCmd) := by
  simp only [commandStep, hb, hs, hcmd, if_true]

/-- The engine's turn, of either grain, ends an illegal command (R64). -/
theorem takeTurn_illegal {s : State} {u : Turn} {e : Illegal} (hu : u = .engine ∨ u = .command) (hb : s.BUSY = true)
    (hs : s.SEQ = .START) (hcmd : decode s.CMD = .error e) : takeTurn u s = .next (raise s .illegalCmd) := by
  rcases hu with rfl | rfl
  · rw [takeTurn, engineStep_illegal hb hs hcmd]
  · rw [takeTurn, commandStep_illegal hb hs hcmd]

/-- STATUS after an acceptance: BUSY alone (40_command_lifecycle.md R75). -/
theorem accept_status (s : State) (v : Word) : (accept s v).status = 0x00000001 := by
  rw [State.status, accept_ERR, accept_DONE, accept_BUSY]
  decide

/-- STATUS after the end of an illegal word: DONE, and code 3 in ERR (60_exceptions.md R130, R136). -/
theorem raise_illegalCmd_status (s : State) : (raise s .illegalCmd).status = 0x00000032 := by
  rw [State.status, raise_ERR, raise_DONE, raise_BUSY]
  decide

/-- The write of a command word while idle is its acceptance (20_memory.md R46, 40_command_lifecycle.md R75). -/
theorem step_write_cmd {s : State} {v : Word} {ts : List Turn} (hturns : s.turns = .write 0x000 v :: ts)
    (hidle : s.BUSY = false) : step s = .next (accept (s.withTurns ts) v) :=
  (step_write hturns).trans (congrArg _ (hostWrite_cmd (s := s.withTurns ts) hidle v))

/-- Settles O3: the legal words are 1 to 4, a write to CMD while idle is an acceptance, and START rejects an illegal word. -/
theorem everyWordIsACommandOrIllegal : Obligations.EveryWordIsACommandOrIllegal := by
  intro w
  refine ⟨?_, fun i hi => ?_, fun s hidle => ?_, fun s hb hs hcmd hw => ?_⟩
  · rw [exists_decode_iff]
    omega
  · have hw := decode_eq_ok_iff.mp hi
    have hrange := exists_decode_iff.mp ⟨i, hi⟩
    omega
  · have haccept : hostWrite s 0x000 w = accept s w := hostWrite_cmd hidle w
    rw [haccept]
    exact ⟨rfl, rfl, rfl⟩
  · obtain ⟨e, he⟩ := exists_illegal hw
    rw [engineStep_illegal hb hs (hcmd ▸ he)]
    exact ⟨rfl, rfl, rfl⟩

/-- Settles O22: the write is an acceptance and the engine's turn is `raise`, whose effects on the state these are. -/
theorem illegalWordEndsInIllegalCmd : Obligations.IllegalWordEndsInIllegalCmd := by
  intro s w u ts hidle h1 h2 h3 h4 hu hturns
  have hillegal (i : Instr) : decode w ≠ .ok i := by
    intro hi
    have hw := eq_encode_of_decode hi
    cases i with
    | egcd => exact h1 hw
    | modexp => exact h2 hw
    | modinv => exact h3 hw
    | privkey => exact h4 hw
  obtain ⟨e, he⟩ := exists_illegal hillegal
  have hwrite := step_write_cmd hturns hidle
  have hend := (step_cons (s := accept (s.withTurns (u :: ts)) w) rfl).trans (takeTurn_illegal hu rfl rfl he)
  exact ⟨_, _, hwrite, accept_status .., accept_zeroResults .., hend, rfl, raise_zeroResults .., raise_illegalCmd_status _, rfl⟩

end Sys2Proof.Machine
end

section
/-! The datapath against the result functions of R82: after the two loops a command ends by `finishWith`, with the outcome
its result function gives. -/

namespace Sys2Proof.Machine

/-- A completion overwrites every field but the operands, CMD and the agents' fields, so work done before it shows in
the working registers alone. -/
theorem WorksFrom.finishWith_forgetWork {s t : State} (h : WorksFrom s t) (r : Result) :
    (finishWith t r).forgetWork = (finishWith s r).forgetWork := by
  unfold finishWith
  split
  · simp only [State.forgetWork, complete, h.L, h.A, h.B, h.C, h.CMD, h.turns, h.reads]
  · simp only [State.forgetWork, raise, h.L, h.A, h.B, h.C, h.CMD, h.turns, h.reads]

/-- The EGCD finish of what the loop leaves (41_egcd.md R94). -/
theorem egcdFinish_eq_finishWith {s : State} {a b : Int} (hvars : s.euclidVars = egcdCore a b) (hzero : ¬(a = 0 ∧ b = 0)) :
    egcdFinish s = finishWith s (egcdResult s.L a b) := by
  rw [egcdResult, if_neg hzero, ← hvars, apply_ite (finishWith s)]
  rfl

/-- The inverse finish of what the loop leaves (43_modinv.md R117, R118). -/
theorem invFinish_eq_finishWith {s : State} {a m : Int} (hvars : s.euclidVars = egcdCore a m) (hMD : s.MD = m) :
    invFinish s = finishWith s (invResult s.L a m) := by
  subst hMD
  rw [invResult, ← hvars, apply_ite (finishWith s), apply_ite (finishWith s)]
  rfl

/-- The Euclidean loop from the start values is `EGCD_CORE`; the finishing step comes next. -/
theorem egcdRest_of_loaded {s : State} {a b : Int} (hseq : s.SEQ = .EGCD_ITER)
    (hvars : s.euclidVars = ⟨a, b, 1, 0, 0, 1⟩) :
    egcdRest s = egcdIter (s.withVars (egcdCore a b)) ∧ (s.withVars (egcdCore a b)).RB = 0 := by
  have hcore : egcdCore a b = euclidWhile s.RB.natAbs s.euclidVars := by
    rw [hvars, show s.RB = b from congrArg EuclidVars.r1 hvars]
    rfl
  rw [hcore]
  exact ⟨egcdRest_eq hseq, egcdRest_exit_RB s⟩

theorem egcdIter_finish_egcd {s : State} (hRB : s.RB = 0) (hFIN : s.FIN = .FIN_EGCD) : egcdIter s = egcdFinish s := by
  rw [egcdIter_finish hRB, hFIN]

theorem egcdIter_finish_inv {s : State} (hRB : s.RB = 0) (hFIN : s.FIN = .FIN_INV) : egcdIter s = invFinish s := by
  rw [egcdIter_finish hRB, hFIN]

/-- EGCD_START, the loop and the EGCD finish (41_egcd.md R91 to R94). -/
theorem egcdRest_egcdStart (s : State) :
    ∃ u, WorksFrom s u ∧ egcdRest (egcdStart s) = finishWith u (egcdResult s.L (s.x .A) (s.x .B)) := by
  rcases egcdStart_cases s with ⟨hA, hB, h⟩ | ⟨hzero, hW, hseq, hFIN, hvars⟩
  · refine ⟨s, .refl s, ?_⟩
    rw [h, egcdRest_stop (by simp), egcdResult, if_pos ⟨hA, hB⟩, finishWith_error s (by decide)]
  · obtain ⟨hrest, hRB⟩ := egcdRest_of_loaded hseq hvars
    refine ⟨_, hW.trans (withVars_worksFrom _ (egcdCore (s.x .A) (s.x .B))), ?_⟩
    rw [hrest, egcdIter_finish_egcd hRB hFIN, ← hW.L]
    exact egcdFinish_eq_finishWith rfl hzero

/-- INV_LOAD, the loop and the inverse finish (43_modinv.md R116 to R118). -/
theorem egcdRest_invLoad (s : State) (a m : Int) :
    ∃ u, WorksFrom s u ∧ egcdRest (invLoad s a m) = finishWith u (invResult s.L a m) := by
  obtain ⟨hrest, hRB⟩ := egcdRest_of_loaded (s := invLoad s a m) rfl rfl
  refine ⟨_, (invLoad_worksFrom s a m).trans (withVars_worksFrom _ (egcdCore a m)), ?_⟩
  rw [hrest, egcdIter_finish_inv hRB rfl]
  exact invFinish_eq_finishWith rfl rfl

theorem egcdRest_modinvStart (s : State) :
    ∃ u, WorksFrom s u ∧ egcdRest (modinvStart s) = finishWith u (modinvResult s.L (s.x .A) (s.x .B)) := by
  rcases modinvStart_cases s with ⟨hB, h⟩ | ⟨hB, h⟩ <;> rw [h, modinvResult]
  · refine ⟨s, .refl s, ?_⟩
    rw [egcdRest_stop (by simp), if_pos hB, finishWith_error s (by decide)]
  · rw [if_neg hB.not_ge]
    exact egcdRest_invLoad s _ _

theorem egcdRest_privkeyStart (s : State) :
    ∃ u, WorksFrom s u ∧
      egcdRest (privkeyStart s) = finishWith u (privkeyResult s.L (s.x .A) (s.x .B) (s.x .C)) := by
  rcases privkeyStart_cases s with ⟨hphi, h⟩ | ⟨hmax, hphi, h⟩ | ⟨hphi, hfits, h⟩ <;> rw [h, privkeyResult]
  · refine ⟨s, .refl s, ?_⟩
    rw [egcdRest_stop (by simp), if_pos hphi, finishWith_error s (by decide)]
  · refine ⟨s, .refl s, ?_⟩
    rw [egcdRest_stop (by simp), if_neg hphi.not_ge, if_pos hmax, finishWith_error s (by decide)]
  · rw [if_neg hphi.not_ge, if_neg hfits.2.not_gt]
    exact egcdRest_invLoad s _ _

theorem modexpRest_modexpStart (s : State) :
    ∃ u, WorksFrom s u ∧ modexpRest (modexpStart s) = finishWith u (modexpResult (s.x .A) (s.x .B) (s.x .C)) := by
  rcases modexpStart_cases s with ⟨hbad, h⟩ | ⟨hB, hC, hW, hseq, hMD, hEX, hBS, hACC, hI⟩
  · refine ⟨s, .refl s, ?_⟩
    rw [h, modexpRest_stop (by simp), modexpResult, if_pos hbad, finishWith_error s (by decide)]
  · refine ⟨_, hW.trans (modexpDone_worksFrom _), ?_⟩
    rw [modexpRest_eq hseq, hMD, hEX, hBS, hACC, hI, modexpResult, if_neg (by omega), finishWith_normal]

/-- Every command works in the working registers, then ends with the outcome of `Exec` (40_command_lifecycle.md R82). -/
theorem exec_finishWith (i : Instr) (s : State) :
    ∃ u, WorksFrom s u ∧
      exec i s = .next (finishWith u (execResult s.L (encode i) (s.x .A) (s.x .B) (s.x .C))) := by
  simp only [execResult, decode_encode]
  cases i with
  | egcd => simpa only [exec, execEgcd, Host.Outcome.next.injEq] using egcdRest_egcdStart s
  | modexp => simpa only [exec, execModexp, Host.Outcome.next.injEq] using modexpRest_modexpStart s
  | modinv => simpa only [exec, execModinv, Host.Outcome.next.injEq] using egcdRest_modinvStart s
  | privkey => simpa only [exec, execPrivkey, Host.Outcome.next.injEq] using egcdRest_privkeyStart s

/-- Up to the working registers a command ends in the state `finishWith` makes of the state it began in. -/
theorem exec_forgetWork {i : Instr} {s t : State} (h : exec i s = .next t) :
    t.forgetWork = (finishWith s (execResult s.L (encode i) (s.x .A) (s.x .B) (s.x .C))).forgetWork := by
  obtain ⟨u, hW, hu⟩ := exec_finishWith i s
  obtain rfl := Host.Outcome.next.inj (h.symm.trans hu)
  exact hW.finishWith_forgetWork _

/-- Settles O44: START, loop and finish of each command are its result function, and a completion hides the loop's work in
the working registers. -/
theorem commandsMatchTheResultFunctions : Obligations.CommandsMatchTheResultFunctions := by
  intro i s _
  obtain ⟨t, hexec, -⟩ := exec_endsFrom i s
  exact ⟨t, hexec, exec_forgetWork hexec⟩

end Sys2Proof.Machine
end

section
/-! The two grains of the engine: a run of single engine steps to the completion is the merged step (40_command_lifecycle.md
R84). -/

namespace Sys2Proof.Machine

/-- `n` engine steps take the busy engine from `s` to `t`, and it is busy before each of them. -/
structure EngineRun (n : Nat) (s t : State) : Prop where
  ends : engineSteps n s = t
  busy : ∀ m, m < n → (engineSteps m s).BUSY = true

theorem EngineRun.refl (s : State) : EngineRun 0 s s := ⟨rfl, fun _ hm => absurd hm (Nat.not_lt_zero _)⟩

/-- A busy engine's step before a run makes a run of one step more. -/
theorem EngineRun.cons {n : Nat} {s t : State} (hbusy : s.BUSY = true) (h : EngineRun n (engineStep s) t) :
    EngineRun (n + 1) s t where
  ends := h.ends
  busy
    | 0, _ => hbusy
    | m + 1, hm => h.busy m (Nat.lt_of_succ_lt_succ hm)

theorem EngineRun.tail {n : Nat} {s t : State} (h : EngineRun (n + 1) s t) : EngineRun n (engineStep s) t :=
  ⟨h.ends, fun m hm => h.busy (m + 1) (Nat.succ_lt_succ hm)⟩

theorem engineRun_egcdRest {s : State} (hbusy : s.BUSY = true) (hseq : s.SEQ = .EGCD_ITER) :
    ∃ n, EngineRun (n + 1) s (egcdRest s) := by
  obtain ⟨n, -, -, hm, hend⟩ := engineSteps_egcd s.RB.natAbs s hbusy hseq (le_refl _)
  exact ⟨n, hend, hm⟩

theorem engineRun_modexpRest {s : State} (hbusy : s.BUSY = true) (hseq : s.SEQ = .MODEXP_ITER) :
    EngineRun (s.I + 1) s (modexpRest s) :=
  let ⟨hm, hend⟩ := engineSteps_modexp s.I s hbusy hseq rfl
  ⟨hend, hm⟩

theorem engineStep_starting {s : State} {i : Instr} (h : s.starting i) : engineStep s = startOf i s := by
  obtain ⟨hbusy, hseq, hcmd⟩ := h
  rw [engineStep_start hbusy hseq, startStep, hcmd]

theorem commandStep_starting {s : State} {i : Instr} (h : s.starting i) : commandStep s = exec i s := by
  obtain ⟨hbusy, hseq, hcmd⟩ := h
  simp only [commandStep, hbusy, hseq, hcmd, if_true]

/-- A command runs to its completion by the START step and the steps of the loop it enters. -/
theorem engineRun_exec {s : State} {i : Instr} (h : s.starting i) :
    ∃ n t, exec i s = .next t ∧ EngineRun (n + 1) s t := by
  have hstep := engineStep_starting h
  rw [exec_eq]
  rcases startOf_cases i s with hE | ⟨hW, hseq | hseq⟩
  · refine ⟨0, _, rfl, .cons h.1 ?_⟩
    rw [egcdRest_stop (by simp [hE.seq]), modexpRest_stop (by simp [hE.seq]), hstep]
    exact .refl _
  · refine ⟨(startOf i s).I + 1, _, rfl, .cons h.1 ?_⟩
    rw [egcdRest_stop (by simp [hseq]), hstep]
    exact engineRun_modexpRest (hW.busy.trans h.1) hseq
  · obtain ⟨n, hrun⟩ := engineRun_egcdRest (hW.busy.trans h.1) hseq
    refine ⟨n + 1, _, rfl, .cons h.1 ?_⟩
    rwa [modexpRest_stop (by simp [(egcdRest_endsFrom hseq).seq]), hstep]

/-- The merged step of a busy engine is a run of at least one single step. -/
theorem engineRun_commandStep {s : State} (hbusy : s.BUSY = true) (hseq : s.SEQ ≠ .IDLE) :
    ∃ n t, commandStep s = .next t ∧ EngineRun (n + 1) s t := by
  cases hs : s.SEQ with
  | IDLE => exact absurd hs hseq
  | START =>
    cases hcmd : decode s.CMD with
    | ok i =>
      have hstart : s.starting i := ⟨hbusy, hs, hcmd⟩
      rw [commandStep_starting hstart]
      exact engineRun_exec hstart
    | error e =>
      refine ⟨0, _, commandStep_illegal hbusy hs hcmd, .cons hbusy ?_⟩
      rw [engineStep_illegal hbusy hs hcmd]
      exact .refl _
  | MODEXP_ITER => exact ⟨_, _, by simp only [commandStep, hbusy, hs, if_true], engineRun_modexpRest hbusy hs⟩
  | EGCD_ITER =>
    obtain ⟨n, hrun⟩ := engineRun_egcdRest hbusy hs
    exact ⟨n, _, by simp only [commandStep, hbusy, hs, if_true], hrun⟩

theorem commandStep_endsFrom {s t : State} (hbusy : s.BUSY = true) (hseq : s.SEQ ≠ .IDLE)
    (h : commandStep s = .next t) : EndsFrom s t := by
  obtain ⟨t', ht', hcase⟩ := commandStep_cases s
  obtain rfl := Host.Outcome.next.inj (h.symm.trans ht')
  rcases hcase with ⟨-, hidle | hidle⟩ | ⟨-, -, hE⟩
  · simp [hbusy] at hidle
  · exact absurd hidle hseq
  · exact hE

/-- The engine neither reads nor writes the turns to come. -/
theorem engineStep_withTurns (s : State) (ts : List Turn) : engineStep (s.withTurns ts) = (engineStep s).withTurns ts := by
  have hreads : (engineStep s).reads = s.reads := by
    rcases engineStep_cases s with ⟨h, -⟩ | ⟨-, hE⟩ | ⟨-, hW, -⟩
    · rw [h]
    · exact hE.reads
    · exact hW.reads
  calc engineStep (s.withTurns ts) = (engineStep s).withHost ts s.reads := engineStep_withHost s ts s.reads
    _ = (engineStep s).withTurns ts := by rw [← hreads]; rfl

theorem engineSteps_withTurns (n : Nat) (s : State) (ts : List Turn) :
    engineSteps n (s.withTurns ts) = (engineSteps n s).withTurns ts := by
  induction n generalizing s with
  | zero => rfl
  | succ n ih => rw [engineSteps, engineStep_withTurns, ih]; rfl

/-- `n` turns of the engine at the head of the list are `n` engine steps. -/
theorem run_engine_turns (n : Nat) (s : State) (ts : List Turn) :
    Host.Core.run Sys2Proof.core n (s.withTurns (List.replicate n .engine ++ ts)) =
      .next ((engineSteps n s).withTurns ts) := by
  induction n generalizing s with
  | zero => rfl
  | succ n ih =>
    have hstep : step (s.withTurns (.engine :: (List.replicate n .engine ++ ts))) =
        .next ((engineStep s).withTurns (List.replicate n .engine ++ ts)) := by
      rw [step_withTurns_cons, takeTurn, engineStep_withTurns]
    rw [List.replicate_succ, List.cons_append, run_next _ hstep, ih]
    rfl

/-- Settles O45: the merged step is a run of single steps, which the same number of engine turns makes. -/
theorem engineStepsEqualTheMergedCommand : Obligations.EngineStepsEqualTheMergedCommand := by
  intro s ts hbusy hseq
  obtain ⟨n, t, hmerged, hrun⟩ := engineRun_commandStep (s := s.withTurns ts) hbusy hseq
  have hE := commandStep_endsFrom (s := s.withTurns ts) hbusy hseq hmerged
  refine ⟨n + 1, t, n.succ_pos, (step_withTurns_cons ..).trans hmerged, hE.busy, hE.done, ?_, fun m hm => ?_⟩
  · rw [run_engine_turns, ← engineSteps_withTurns, hrun.ends]
  · simpa [engineSteps_withTurns] using hrun.busy m hm

end Sys2Proof.Machine
end

section
/-! CALL (30_encoding.md R67): the command word's acceptance, then the polling loop, whose passes and the engine's steps
take turns (log 11) until the run of the engine ends. -/

namespace Sys2Proof.Machine

/-- While the engine stays busy STATUS stays as it is. -/
theorem engineStep_status {s : State} (hbusy : (engineStep s).BUSY = true) : (engineStep s).status = s.status := by
  rcases engineStep_cases s with ⟨h, -⟩ | ⟨-, hE⟩ | ⟨-, hW, -⟩
  · rw [h]
  · simp [hE.busy] at hbusy
  · exact status_congr hW.busy hW.done hW.err

/-- A pass of WAIT while idle reads STATUS and ends the loop. -/
theorem step_wait_idle {s : State} (hidle : s.BUSY = false) (ts : List Turn) (rs : List Word) :
    step (s.withHost (.wait :: ts) rs) = .next (s.withHost ts (s.status :: rs)) :=
  congrArg Host.Outcome.next (waitTurn_idle (s := s.withHost ts rs) hidle)

/-- A pass of WAIT while busy reads STATUS; the engine's turn and another pass come next. -/
theorem step_wait_busy {s : State} (hbusy : s.BUSY = true) (ts : List Turn) (rs : List Word) :
    step (s.withHost (.wait :: ts) rs) = .next (s.withHost (.engine :: .wait :: ts) (s.status :: rs)) :=
  congrArg Host.Outcome.next (waitTurn_busy (s := s.withHost ts rs) hbusy)

theorem step_engine_withHost (s : State) (ts : List Turn) (rs : List Word) :
    step (s.withHost (.engine :: ts) rs) = .next ((engineStep s).withHost ts rs) :=
  congrArg Host.Outcome.next (engineStep_withHost s ts rs)

/-- WAIT polls once before each engine step of the run, and once more when the run has ended. -/
theorem run_wait {n : Nat} {s t : State} (hrun : EngineRun n s t) (hend : t.BUSY = false)
    (hstatus : s.BUSY = true → s.status = 0x00000001) (ts : List Turn) (rs : List Word) :
    Host.Core.run Sys2Proof.core (2 * n + 1) (s.withHost (.wait :: ts) rs) =
      .next (t.withHost ts (t.status :: (List.replicate n 0x00000001 ++ rs))) := by
  induction n generalizing s rs with
  | zero =>
    obtain rfl : s = t := hrun.ends
    exact run_next 0 (step_wait_idle hend ts rs)
  | succ n ih =>
    have hbusy : s.BUSY = true := hrun.busy 0 n.succ_pos
    have hstatus' (h : (engineStep s).BUSY = true) : (engineStep s).status = 0x00000001 :=
      (engineStep_status h).trans (hstatus hbusy)
    rw [show 2 * (n + 1) + 1 = 2 * n + 1 + 1 + 1 by ring, run_next _ (step_wait_busy hbusy ts rs),
      run_next _ (step_engine_withHost s _ _), ih hrun.tail hstatus', hstatus hbusy, List.replicate_succ',
      List.append_assoc, List.singleton_append]

/-- An accepted command word is a command about to start. -/
theorem accept_starting (s : State) (i : Instr) : (accept s (encode i)).starting i := ⟨rfl, rfl, decode_encode i⟩

/-- Settles O51: the write accepts the word, the engine's run of the command ends as `exec` does, and WAIT polls along. -/
theorem callRunsTheCommandToItsResult : Obligations.CallRunsTheCommandToItsResult := by
  intro s i ts _ hidle hturns
  have hwrite := step_write_cmd (v := encode i) (ts := .wait :: ts) hturns hidle
  obtain ⟨n, t, hexec, hrun⟩ := engineRun_exec (accept_starting s i)
  have hpoll := run_wait hrun (exec_next_endsFrom hexec).busy (fun _ => accept_status s (encode i)) ts s.reads
  refine ⟨2 * (n + 1) + 1 + 1, n + 1, _, (run_next _ hwrite).trans hpoll, rfl, rfl, ?_⟩
  exact congrArg State.forgetHost (exec_forgetWork hexec)

end Sys2Proof.Machine
end

section
/-! How the sequencer moves (40_command_lifecycle.md R85). -/

namespace Sys2Proof.Machine

theorem State.Inv.busy_of_seq {s : State} (h : s.Inv) (hs : s.SEQ ≠ .IDLE) : s.BUSY = true :=
  Bool.eq_true_of_not_eq_false fun hb => hs (h.seq_idle hb)

/-- An engine step that is enabled completes the command, enters a loop from START, or stays in its loop. -/
theorem engineStep_seq {s : State} (hbusy : s.BUSY = true) (hseq : s.SEQ ≠ .IDLE) :
    (engineStep s).SEQ = .IDLE ∨
    (s.SEQ = .START ∧ ((engineStep s).SEQ = .MODEXP_ITER ∨ (engineStep s).SEQ = .EGCD_ITER)) ∨
    (s.SEQ ≠ .START ∧ (engineStep s).SEQ = s.SEQ) := by
  cases hs : s.SEQ with
  | IDLE => exact absurd hs hseq
  | START =>
    rw [engineStep_start hbusy hs]
    exact (startStep_cases s).imp EndsFrom.seq fun ⟨_, h⟩ => .inl ⟨rfl, h⟩
  | MODEXP_ITER =>
    rw [engineStep_modexp hbusy hs]
    by_cases hI : s.I = 0
    · rw [modexpIter_finish hI]; exact .inl rfl
    · rw [modexpIter_pass hI]; exact .inr (.inr ⟨by decide, hs⟩)
  | EGCD_ITER =>
    rw [engineStep_egcd hbusy hs]
    by_cases hRB : s.RB = 0
    · exact .inl (egcdIter_endsFrom hRB).seq
    · rw [egcdIter_pass hRB]; exact .inr (.inr ⟨by decide, hs⟩)

theorem engineStep_leaves_start {s : State} (hbusy : s.BUSY = true) (hs : s.SEQ = .START) :
    (engineStep s).SEQ ≠ .START := by
  rcases engineStep_seq hbusy (by simp [hs]) with h | ⟨-, h | h⟩ | ⟨h, -⟩
  · simp [h]
  · simp [h]
  · simp [h]
  · exact absurd hs h

/-- A step with the engine's single turn, or with no turn left, is the engine's step. -/
theorem step_engine {s : State} (hturns : s.turns = [] ∨ ∃ ts, s.turns = .engine :: ts) :
    ∃ ts, step s = .next (engineStep (s.withTurns ts)) := by
  rcases hturns with h | ⟨ts, h⟩
  · exact ⟨s.turns, step_nil h⟩
  · exact ⟨ts, step_cons h⟩

/-- Where SEQ can come from, for each of the values a step can leave it at. -/
theorem step_seq {s t : State} (hInv : s.Inv) (hstep : step s = .next t) :
    t.SEQ = s.SEQ ∨
    (t.SEQ = .START ∧ s.SEQ = .IDLE ∧ ∃ u ts, s.turns = u :: ts ∧ u.writesCmd) ∨
    (t.SEQ = .IDLE ∧ ((∃ ts, s.turns = .reset :: ts) ∨ s.engineMoves)) ∨
    (s.SEQ = .START ∧ (t.SEQ = .MODEXP_ITER ∨ t.SEQ = .EGCD_ITER) ∧ s.engineMoves) := by
  cases step_effect hstep with
  | hostOnly => exact .inl rfl
  | acceptance hturns hwrites hidle => exact .inr (.inl ⟨rfl, hInv.seq_idle hidle, _, _, hturns, _, hwrites⟩)
  | limbWrite => exact .inl (setBig_SEQ ..)
  | reset hturns => exact .inr (.inr (.inl ⟨rfl, .inl ⟨_, hturns⟩⟩))
  | completion hmoves _ hE => exact .inr (.inr (.inl ⟨hE.seq, .inr hmoves⟩))
  | @work ts hmoves hbusy =>
    rcases engineStep_seq (s := s.withTurns ts) hbusy (hInv.seq_ne_idle hbusy) with h | ⟨hs, h⟩ | ⟨-, h⟩
    · exact .inr (.inr (.inl ⟨h, .inr hmoves⟩))
    · exact .inr (.inr (.inr ⟨hs, h, hmoves⟩))
    · exact .inl h

/-- Settles O18: SEQ stays, or moves in one of the three ways of `step_seq`; an engine step never stays in START. -/
theorem sequencerMovesAsStated : Obligations.SequencerMovesAsStated := by
  intro s t hInv hstep
  have hleaves (hs : s.SEQ = .START) (hturns : s.turns = [] ∨ ∃ ts, s.turns = .engine :: ts) : t.SEQ ≠ .START := by
    obtain ⟨ts, h⟩ := step_engine hturns
    obtain rfl := Host.Outcome.next.inj (hstep.symm.trans h)
    exact engineStep_leaves_start (s := s.withTurns ts) (hInv.busy_of_seq (by simp [hs])) hs
  rcases step_seq hInv hstep with h | ⟨ht, hs, hcmd⟩ | ⟨ht, hcause⟩ | ⟨hs, ht, hmoves⟩
  · exact ⟨fun ht => .inl (h ▸ ht), fun ht => .inl (h ▸ ht), fun ht => .inl (h ▸ ht), fun _ hne => absurd h hne, hleaves⟩
  · exact ⟨fun _ => .inr ⟨hs, hcmd⟩, by simp [ht], by simp [ht], fun hne => absurd hs hne, hleaves⟩
  · exact ⟨by simp [ht], by simp [ht], by simp [ht], fun _ _ => hcause.symm.imp_right fun hr => ⟨hr, ht⟩, hleaves⟩
  · exact ⟨fun _ => .inl hs, fun _ => .inr hs, fun _ => .inr hs, fun _ _ => .inl hmoves, hleaves⟩

end Sys2Proof.Machine
end

section
/-! What every command ends with, and what its outcome depends on (40_command_lifecycle.md R80 to R82). -/

namespace Sys2Proof.Machine

/-- STATUS after a completion: `2 + 16*code` (60_exceptions.md R136), a closed fact for each code. -/
theorem EndsFrom.status_toNat {s t : State} (h : EndsFrom s t) : t.status.toNat = 2 + 16 * t.ERR.code.toNat := by
  rw [State.status, h.busy, h.done]
  cases t.ERR <;> decide

/-- Settles O43: a command ends by one completion, whose frame and STATUS these are. -/
theorem everyCommandEndsByOneCompletion : Obligations.EveryCommandEndsByOneCompletion := by
  intro i s
  obtain ⟨t, hexec, hE⟩ := exec_endsFrom i s
  obtain ⟨h0, h1, h2⟩ := hE.len
  refine ⟨t, hexec, hE.busy, hE.done, hE.seq, hE.A, hE.B, hE.C, hE.CMD, fun herr => ?_, fun herr => ?_⟩
  · apply BitVec.eq_of_toNat_eq
    rw [hE.status_toNat, herr]
    rfl
  · exact ⟨hE.status_toNat, hE.error herr, h0, h1, h2⟩

/-- What a completion shows depends on the width and the outcome alone. -/
theorem finishWith_congr {s u : State} (hL : s.L = u.L) (r : Result) :
    (finishWith s r).status = (finishWith u r).status ∧ (finishWith s r).R0 = (finishWith u r).R0 ∧
    (finishWith s r).R1 = (finishWith u r).R1 ∧ (finishWith s r).R2 = (finishWith u r).R2 := by
  unfold finishWith
  split
  · simp only [complete_R0, complete_R1, complete_R2, hL, and_self, and_true]
    exact status_congr rfl rfl rfl
  · simp only [raise_R0, raise_R1, raise_R2, hL, and_self, and_true]
    exact status_congr rfl rfl rfl

/-- EGCD and MODINV do not read C (40_command_lifecycle.md R82). -/
theorem execResult_congr_C {i : Instr} {c c' : Int} (hc : i = .modexp ∨ i = .privkey → c = c') (L : Nat) (a b : Int) :
    execResult L (encode i) a b c = execResult L (encode i) a b c' := by
  simp only [execResult, decode_encode]
  cases i with
  | egcd | modinv => rfl
  | modexp => rw [hc (.inl rfl)]
  | privkey => rw [hc (.inr rfl)]

/-- Settles O46: both commands end with the outcome of `Exec` on the same width and operands. -/
theorem outcomeDependsOnlyOnTheOperands : Obligations.OutcomeDependsOnlyOnTheOperands := by
  intro i s u s' u' hL hA hB hC hs hu
  obtain ⟨v, hv, hsv⟩ := exec_finishWith i s
  obtain ⟨w, hw, huw⟩ := exec_finishWith i u
  obtain rfl := Host.Outcome.next.inj (hs.symm.trans hsv)
  obtain rfl := Host.Outcome.next.inj (hu.symm.trans huw)
  have hxA : s.x .A = u.x .A := x_congr hA
  have hxB : s.x .B = u.x .B := x_congr hB
  rw [hL, hxA, hxB, execResult_congr_C fun hi => x_congr (X := .C) (hC hi)]
  exact finishWith_congr (by rw [hv.L, hw.L, hL]) _

end Sys2Proof.Machine
end

section
/-! The turns of a command's lifecycle: acceptance, writes while busy, and the engine's turns (40_command_lifecycle.md R75
to R78). -/

namespace Sys2Proof.Machine

theorem commandStep_idle {s : State} (h : s.BUSY = false) : commandStep s = .next s := by
  simp only [commandStep, h, Bool.false_eq_true, if_false]

/-- The word of a command placed by its number is its acceptance, with the engine's turn next (log 3). -/
theorem withFetchWord_encode (s : State) (i : Instr) :
    s.withFetchWord 32 (encode i).toNat = (accept s (encode i)).withTurns (.command :: s.turns) := by
  rw [State.withFetchWord, placeWord, Nat.mod_eq_of_lt (encode i).isLt, BitVec.ofNat_toNat, BitVec.setWidth_eq]

/-- Settles O4: the turn of the merged step is `commandStep`, which is `exec` of the command about to start. -/
theorem stepRunsTheDecodedCommand : Obligations.StepRunsTheDecodedCommand := by
  refine ⟨fun s i ts hturns hstart _ => ?_, fun s i _ => ?_⟩
  · exact (step_cons hturns).trans (commandStep_starting (s := s.withTurns ts) hstart)
  · rw [withFetchWord_encode, step_withTurns_cons]
    exact commandStep_starting (accept_starting s i)

/-- Settles O5: the turn of the engine is `engineStep`, which BUSY and SEQ select. -/
theorem engineTurnTakesTheEnabledStep : Obligations.EngineTurnTakesTheEnabledStep :=
  ⟨fun _ _ hturns => step_cons hturns, fun _ hturns => step_nil hturns, fun _ _ hstart => engineStep_starting hstart,
    fun _ hbusy hseq => engineStep_modexp hbusy hseq, fun _ hbusy hseq => engineStep_egcd hbusy hseq,
    fun _ hidle => ⟨engineStep_idle hidle, commandStep_idle hidle⟩⟩

/-- Settles O6: the write of any word to CMD while idle is its acceptance. -/
theorem acceptanceEffect : Obligations.AcceptanceEffect :=
  fun _ _ _ hturns hidle => ⟨_, step_write_cmd hturns hidle, rfl, accept_zeroResults .., accept_status ..⟩

/-- Settles O7: a write while busy is dropped, and its turn is taken off the list. -/
theorem writesWhileBusyAreDropped : Obligations.WritesWhileBusyAreDropped :=
  fun s _ _ ts hturns hbusy => (step_write hturns).trans (congrArg _ (hostWrite_busy (s := s.withTurns ts) hbusy _ _))

end Sys2Proof.Machine
end

section
/-! What the two completions show the host, and the equations of the two finishes of the Euclidean loop (41_egcd.md R94,
43_modinv.md R117). -/

namespace Sys2Proof.Machine

/-- The STATUS word of a completion is the one whose number R136 gives. -/
theorem EndsFrom.status_eq {s t : State} (h : EndsFrom s t) {w : Word} (hw : w.toNat = 2 + 16 * t.ERR.code.toNat) :
    t.status = w :=
  BitVec.eq_of_toNat_eq (h.status_toNat.trans hw.symm)

theorem complete_status (s : State) (r0 r1 r2 : Int) : (complete s r0 r1 r2).status = 0x00000002 :=
  (complete_endsFrom s r0 r1 r2).status_eq rfl

theorem raise_status (s : State) {e : Err} {w : Word} (hw : w.toNat = 2 + 16 * e.code.toNat) : (raise s e).status = w :=
  (raise_endsFrom s e).status_eq hw

theorem egcdFinish_of_fits {s : State} (hRA : Config.fits s.L s.RA) (hSA : Config.fits s.L s.SA)
    (hTA : Config.fits s.L s.TA) : egcdFinish s = complete s s.RA s.SA s.TA :=
  if_pos ⟨hRA, hSA, hTA⟩

theorem egcdFinish_of_not_fits {s : State}
    (h : ¬(Config.fits s.L s.RA ∧ Config.fits s.L s.SA ∧ Config.fits s.L s.TA)) : egcdFinish s = raise s .range :=
  if_neg h

theorem invFinish_of_not_unit {s : State} (h : s.RA.natAbs ≠ 1) : invFinish s = raise s .contractViolation :=
  if_pos h

theorem invFinish_of_fits {s : State} (h : s.RA.natAbs = 1) (hfits : Config.fits s.L (normalizeOnce s.SA s.MD)) :
    invFinish s = complete s (normalizeOnce s.SA s.MD) 0 0 :=
  (if_neg (not_not.mpr h)).trans (if_pos hfits)

theorem invFinish_of_not_fits {s : State} (h : s.RA.natAbs = 1) (hfits : ¬Config.fits s.L (normalizeOnce s.SA s.MD)) :
    invFinish s = raise s .range :=
  (if_neg (not_not.mpr h)).trans (if_neg hfits)

/-- The inverse finish of a unit shows the coefficient, after at most one addition of the modulus, when it fits. -/
theorem invFinish_shows {s : State} {d : Int} (hshape : s.shape) (h : s.RA.natAbs = 1) (hd : normalizeOnce s.SA s.MD = d)
    (hfits : Config.fits s.L d) :
    (invFinish s).status = 0x00000002 ∧ (invFinish s).x .R0 = d ∧ (invFinish s).x .R1 = 0 ∧ (invFinish s).x .R2 = 0 := by
  subst hd
  rw [invFinish_of_fits h hfits]
  exact ⟨complete_status .., complete_x (shape_L_pos hshape) hfits fits_zero fits_zero⟩

/-- Settles O25: each clause's guard selects one branch of the finish, a normal completion or a `raise`. -/
theorem euclidFinishes : Obligations.EuclidFinishes := by
  intro s hshape
  have hunit (h : s.RA = 1 ∨ s.RA = -1) : s.RA.natAbs = 1 := by omega
  refine ⟨fun hRA hSA hTA => ?_, fun hrange => ?_, fun hne => ?_, fun h hneg hfits => ?_, fun h hnonneg hfits => ?_,
    fun h hrange => ?_⟩
  · rw [egcdFinish_of_fits hRA hSA hTA]
    exact ⟨complete_status .., complete_x (shape_L_pos hshape) hRA hSA hTA⟩
  · rw [egcdFinish_of_not_fits hrange]
    exact ⟨raise_status s rfl, raise_zeroResults ..⟩
  · rw [invFinish_of_not_unit (by omega)]
    exact ⟨raise_status s rfl, raise_zeroResults ..⟩
  · exact invFinish_shows hshape (hunit h) (if_pos hneg) hfits
  · exact invFinish_shows hshape (hunit h) (if_neg hnonneg.not_gt) hfits
  · rw [invFinish_of_not_fits (hunit h) hrange]
    exact ⟨raise_status s rfl, raise_zeroResults ..⟩

end Sys2Proof.Machine
end

section
/-! EGCD (41_egcd.md): its START step, one pass of its loop, and the command as a whole. -/

namespace Sys2Proof.Machine

/-- Settles O23: the START step is `egcdStart`, whose test on the operands selects the error or the loading. -/
theorem egcdStartStep : Obligations.EgcdStartStep := by
  intro s hstart
  have hstep : engineStep s = egcdStart s := engineStep_starting hstart
  rw [hstep]
  refine ⟨fun hA hB => ?_, fun hzero => if_neg hzero⟩
  rw [egcdStart, if_pos ⟨hA, hB⟩]
  exact ⟨rfl, raise_status s rfl, raise_zeroResults .., rfl⟩

/-- A pass keeps both Bezout identities of any pair of integers, because its three pairs share one quotient (R93). -/
theorem euclidPass_bezout {s : State} {a b : Int} (hA : a * s.SA + b * s.TA = s.RA) (hB : a * s.SB + b * s.TB = s.RB) :
    a * (euclidPass s).SA + b * (euclidPass s).TA = (euclidPass s).RA ∧
    a * (euclidPass s).SB + b * (euclidPass s).TB = (euclidPass s).RB := by
  refine ⟨hB, ?_⟩
  rw [euclidPass_SB, euclidPass_TB, euclidPass_RB]
  linear_combination hA - fdiv s.RA s.RB * hB

/-- Settles O24: RB selects the pass or the finish, and FIN the finish. -/
theorem euclidIterationStep : Obligations.EuclidIterationStep := by
  intro s hbusy hseq
  rw [engineStep_egcd hbusy hseq]
  refine ⟨fun hRB => ?_, egcdIter_finish_egcd, egcdIter_finish_inv⟩
  rw [egcdIter_pass hRB]
  refine ⟨?_, fun _ _ => euclidPass_bezout⟩
  rw [euclidPass, sub_fdiv_mul]

/-- Unless both operands are 0 the outcome of EGCD is what the loop leaves: its Range guard is never taken (R96). -/
theorem egcdResult_eq_normal {L : Nat} {a b : Int} (hL : 1 ≤ L) (ha : Config.fits L a) (hb : Config.fits L b)
    (hzero : ¬(a = 0 ∧ b = 0)) :
    egcdResult L a b = .normal (egcdCore a b).r0 (egcdCore a b).s0 (egcdCore a b).t0 := by
  rw [egcdResult, if_neg hzero, if_pos (egcdCore_fits hL ha hb)]

theorem exec_egcd_zero {s : State} (hA : s.x .A = 0) (hB : s.x .B = 0) : exec .egcd s = .next (raise s .invalidInput) := by
  rw [exec, execEgcd, egcdStart, if_pos ⟨hA, hB⟩, egcdRest_stop (by simp)]

/-- EGCD completes normally with the triple of the loop as a function, for every width and every other pair. -/
theorem exec_egcd_shows {s : State} (hshape : s.shape) (hzero : ¬(s.x .A = 0 ∧ s.x .B = 0)) :
    ∃ t, exec .egcd s = .next t ∧ t.status = 0x00000002 ∧ t.x .R0 = (egcdCore (s.x .A) (s.x .B)).r0 ∧
      t.x .R1 = (egcdCore (s.x .A) (s.x .B)).s0 ∧ t.x .R2 = (egcdCore (s.x .A) (s.x .B)).t0 := by
  have hL := shape_L_pos hshape
  obtain ⟨hr0, hs0, ht0⟩ := egcdCore_fits hL (fits_x hshape .A) (fits_x hshape .B)
  obtain ⟨u, hW, hrest⟩ := egcdRest_egcdStart s
  rw [egcdResult_eq_normal hL (fits_x hshape .A) (fits_x hshape .B) hzero, finishWith_normal] at hrest
  refine ⟨_, congrArg Host.Outcome.next hrest, complete_status .., complete_x ?_ ?_ ?_ ?_⟩ <;> rwa [hW.L]

/-- Settles O29: the loop keeps the gcd and the Bezout identity, and its coefficients fit the width. -/
theorem egcdMeetsItsContract : Obligations.EgcdMeetsItsContract := by
  intro s hshape
  refine ⟨fun hzero => ?_, fun hA hB => ?_⟩
  · obtain ⟨t, hexec, hstatus, hR0, hR1, hR2⟩ := exec_egcd_shows hshape hzero
    refine ⟨t, hexec, hstatus, (exec_next_endsFrom hexec).seq, ?_, ?_⟩
    · rw [hR0, egcdCore_gcd]
    · rw [hR0, hR1, hR2, egcdCore_bezout]
  · exact ⟨_, exec_egcd_zero hA hB, raise_status s rfl, rfl, raise_zeroResults ..⟩

/-- From the START step on, the engine runs EGCD by `n` passes and the finishing step, `n` at most `|b|` (R95, R168). -/
theorem engineRun_egcd {s : State} (hstart : s.starting .egcd) (hzero : ¬(s.x .A = 0 ∧ s.x .B = 0)) :
    ∃ n t, n ≤ (s.x .B).natAbs ∧ (s.x .B = 0 → n = 0) ∧ EngineRun (n + 2) s t ∧ EndsFrom s t := by
  rcases egcdStart_cases s with ⟨hA, hB, -⟩ | ⟨-, hW, hseq, -, hvars⟩
  · exact absurd ⟨hA, hB⟩ hzero
  · have hRB : (egcdStart s).RB = s.x .B := congrArg EuclidVars.r1 hvars
    have hstep : engineStep s = egcdStart s := engineStep_starting hstart
    obtain ⟨n, hn, hn0, hbusy, hend⟩ :=
      engineSteps_egcd (s.x .B).natAbs (egcdStart s) (hW.busy.trans hstart.1) hseq (by rw [hRB])
    rw [hRB] at hn0
    refine ⟨n, _, hn, hn0, .cons hstart.1 ?_, hW.endsFrom (egcdRest_endsFrom hseq)⟩
    rw [hstep]
    exact ⟨hend, hbusy⟩

/-- Settles O30: the sign is that of the loop as a function, and the steps are those of the engine's run. -/
theorem egcdSignAndTermination : Obligations.EgcdSignAndTermination := by
  refine ⟨fun s t hshape hzero hexec => ?_, fun s hstart hzero => ?_⟩
  · obtain ⟨t', hexec', -, hR0, hR1, hR2⟩ := exec_egcd_shows hshape hzero
    obtain rfl := Host.Outcome.next.inj (hexec.symm.trans hexec')
    rw [hR0, hR1, hR2]
    refine ⟨egcdCore_sign_pos, egcdCore_sign_neg, fun hB => ?_⟩
    rw [hB, egcdCore_zero]
    exact ⟨rfl, rfl, rfl⟩
  · obtain ⟨n, t, hn, hn0, hrun, hE⟩ := engineRun_egcd hstart hzero
    rw [← hrun.ends] at hE
    exact ⟨n, by omega, hn0, hrun.busy, hE.busy, hE.done, hE.seq⟩

end Sys2Proof.Machine
end

section
/-! MODEXP (42_modexp.md): its START step, one pass of its loop, and the number of engine steps it takes. -/

namespace Sys2Proof.Machine

theorem modexpStart_bad {s : State} (h : s.x .B < 0 ∨ s.x .C ≤ 0) : modexpStart s = raise s .invalidInput := if_pos h

theorem exec_modexp_bad {s : State} (h : s.x .B < 0 ∨ s.x .C ≤ 0) : exec .modexp s = .next (raise s .invalidInput) := by
  rw [exec, execModexp, modexpStart_bad h, modexpRest_stop (by simp)]

/-- Settles O33: the START step ends the command with InvalidInput, and there is no loop to run. -/
theorem modexpRejectsBadArguments : Obligations.ModexpRejectsBadArguments :=
  fun s hbad => ⟨_, exec_modexp_bad hbad, raise_status s rfl, rfl, rfl, raise_zeroResults ..⟩

/-- Settles O26: the START step is `modexpStart`, whose test on exponent and modulus selects the error or the loading. -/
theorem modexpStartStep : Obligations.ModexpStartStep := by
  intro s hstart
  have hstep : engineStep s = modexpStart s := engineStep_starting hstart
  rw [hstep]
  refine ⟨fun hbad => ?_, fun hB hC => ?_⟩
  · rw [modexpStart_bad hbad]
    exact ⟨rfl, raise_status s rfl, raise_zeroResults .., rfl⟩
  · rw [modexpStart, if_neg (by omega)]
    refine ⟨rfl, fmod_nonneg hC, fmod_lt hC, fun hB0 => ?_, fun hBpos => ?_⟩
    · simp [hB0]
    · exact_mod_cast bitlen_bounds hBpos

theorem squareMultiply_of_bit_one {acc bs ex md : Int} {i : Nat} (h : fmod (fdiv ex (2 ^ i)) 2 = 1) :
    squareMultiply acc bs ex md i = fmod (fmod (acc * acc) md * bs) md :=
  if_pos (by simpa [bit] using h)

theorem squareMultiply_of_bit_zero {acc bs ex md : Int} {i : Nat} (h : fmod (fdiv ex (2 ^ i)) 2 = 0) :
    squareMultiply acc bs ex md i = fmod (acc * acc) md :=
  if_neg (by simp [bit, h])

theorem engineStep_modexp_pass {s : State} (hbusy : s.BUSY = true) (hseq : s.SEQ = .MODEXP_ITER) (hI : s.I ≠ 0) :
    engineStep s = modexpPass s :=
  (engineStep_modexp hbusy hseq).trans (modexpIter_pass hI)

theorem engineStep_modexp_finish {s : State} (hbusy : s.BUSY = true) (hseq : s.SEQ = .MODEXP_ITER) (hI : s.I = 0) :
    engineStep s = complete s s.ACC 0 0 :=
  (engineStep_modexp hbusy hseq).trans (modexpIter_finish hI)

/-- Settles O27: the count selects the completion or a pass, and the exponent's bit what the pass multiplies in. -/
theorem modexpIterationStep : Obligations.ModexpIterationStep := by
  intro s hbusy hseq
  refine ⟨fun hI => ?_, fun hI => ?_⟩
  · rw [engineStep_modexp_finish hbusy hseq hI]
    refine ⟨by rw [complete, encLimbs_zero], fun hshape hfits => ?_⟩
    exact (complete_x (shape_L_pos hshape) hfits fits_zero fits_zero).1
  · rw [engineStep_modexp_pass hbusy hseq hI]
    refine ⟨fun hone => ?_, fun hzero => ?_, squareMultiply_range⟩
    · rw [modexpPass, squareMultiply_of_bit_one hone]
    · rw [modexpPass, squareMultiply_of_bit_zero hzero]

/-- A value that fits is shorter than the width, because the sign takes one bit (42_modexp.md R105). -/
theorem bitlen_le_of_fits {L : Nat} {e : Int} (he : 0 ≤ e) (hfits : Config.fits L e) : bitlen e ≤ 32 * L - 1 := by
  rcases he.eq_or_lt with rfl | hpos
  · simp
  · have hmax : e < ((2 ^ (32 * L - 1) : Nat) : Int) := by
      have := hfits.2
      unfold Config.maxInt Config.width at this
      omega
    have hpow : 2 ^ (bitlen e - 1) < 2 ^ (32 * L - 1) := by
      exact_mod_cast (bitlen_bounds hpos).1.trans_lt hmax
    have := (Nat.pow_lt_pow_iff_right (by norm_num)).mp hpow
    omega

/-- With valid operands the engine runs MODEXP by the START step, `bitlen(exponent)` passes and the completing step. -/
theorem engineRun_modexp {s : State} (hstart : s.starting .modexp) (hB : 0 ≤ s.x .B) (hC : 0 < s.x .C) :
    ∃ t, EngineRun (bitlen (s.x .B) + 2) s t ∧ EndsFrom s t := by
  rcases modexpStart_cases s with ⟨hbad, -⟩ | ⟨-, -, hW, hseq, -, -, -, -, hI⟩
  · omega
  · have hstep : engineStep s = modexpStart s := engineStep_starting hstart
    refine ⟨_, .cons hstart.1 ?_, hW.endsFrom (modexpRest_endsFrom hseq)⟩
    rw [hstep, ← hI]
    exact engineRun_modexpRest (hW.busy.trans hstart.1) hseq

/-- Settles O34: the steps are those of the engine's run, and the exponent fits the width. -/
theorem modexpStepCount : Obligations.ModexpStepCount := by
  intro s hshape hstart hB hC
  obtain ⟨t, hrun, hE⟩ := engineRun_modexp hstart hB hC
  rw [← hrun.ends] at hE
  exact ⟨bitlen_le_of_fits hB (fits_x hshape .B), hrun.busy, hE.busy, hE.done⟩

end Sys2Proof.Machine
end

section
/-! MODEXP as the recursive form of R110, and the value of both (R106). -/

namespace Sys2Proof.Machine

@[simp] theorem modpow_zero (b m : Int) : modpow b 0 m = 1 := rfl

/-- Halving drops the last bit of the exponent. -/
theorem bitlen_eq_half_add_one {e : Int} (he : 0 < e) : bitlen e = bitlen (fdiv e 2) + 1 := by
  have hhalf : (e / 2).toNat = e.toNat / 2 := by omega
  rw [fdiv_eq_ediv (by norm_num), bitlen, if_neg he.ne', bitlen, hhalf, Nat.log2_def]
  split_ifs <;> omega

/-- The recursion of R110, in the terms of the loop: one call does to the value of the nested call what a pass does to
ACC. -/
theorem modpow_eq_squareMultiply {b e m : Int} (he : 0 < e) :
    modpow b e m = squareMultiply (modpow b (fdiv e 2) m) b e m 0 := by
  have hbit : bit e 0 = fmod e 2 := by simp [bit, fdiv]
  rw [modpow, bitlen_eq_half_add_one he, modpowFuel, if_neg he.ne', squareMultiply, hbit]
  rfl

/-- A pass looks at the last bit of the exponent's top bits. -/
theorem squareMultiply_top (acc bs ex md : Int) (i : Nat) :
    squareMultiply acc bs (fdiv ex (2 ^ i)) md 0 = squareMultiply acc bs ex md i := by
  simp [squareMultiply, bit, fdiv]

/-- The pass for bit `i` takes the recursive form's value for the exponent's bits above `i` to that with bit `i`, while
some bit from `i` on is set. -/
theorem squareMultiply_modpow {bs ex md : Int} {i : Nat} (hi : i < bitlen ex) (hex : 0 ≤ ex) :
    squareMultiply (modpow bs (fdiv ex (2 ^ (i + 1))) md) bs ex md i = modpow bs (fdiv ex (2 ^ i)) md := by
  have hpos : 0 < ex := hex.lt_of_ne (by rintro rfl; simp at hi)
  have hle : (2 : Int) ^ i ≤ ex :=
    (pow_le_pow_right₀ one_le_two (Nat.le_sub_one_of_lt hi)).trans (by exact_mod_cast (bitlen_bounds hpos).1)
  have htop : 0 < fdiv ex (2 ^ i) := by
    rw [fdiv_eq_ediv (by positivity)]
    exact Int.le_ediv_of_mul_le (by positivity) (by simpa using hle)
  have hhalf : fdiv (fdiv ex (2 ^ i)) 2 = fdiv ex (2 ^ (i + 1)) := by
    rw [fdiv_eq_ediv (by norm_num), fdiv_eq_ediv (by positivity), fdiv_eq_ediv (by positivity), pow_succ,
      Int.ediv_ediv_of_nonneg (by positivity)]
  rw [modpow_eq_squareMultiply htop, hhalf, squareMultiply_top]

/-- The loop for the bits below `n`, from the recursive form's value for the bits above. -/
theorem modexpFor_modpow {bs ex md : Int} (hex : 0 ≤ ex) (n : Nat) (hn : n ≤ bitlen ex) :
    modexpFor bs ex md n (modpow bs (fdiv ex (2 ^ n)) md) = modpow bs ex md := by
  induction n with
  | zero => simp [modexpFor, fdiv]
  | succ n ih => rw [modexpFor, squareMultiply_modpow hn hex, ih (Nat.le_of_succ_le hn)]

/-- The whole loop computes the recursive form. -/
theorem modexpFor_eq_modpow {bs ex md : Int} (hex : 0 ≤ ex) : modexpFor bs ex md (bitlen ex) 1 = modpow bs ex md := by
  have hnone : fdiv ex (2 ^ bitlen ex) = 0 := by
    rw [fdiv_eq_ediv (by positivity)]
    exact_mod_cast div_two_pow_bitlen hex
  have h := modexpFor_modpow (bs := bs) (md := md) hex (bitlen ex) le_rfl
  rwa [hnone, modpow_zero] at h

theorem modpow_of_pos {b e m : Int} (he : 0 < e) (hm : 0 < m) : modpow b e m = fmod (b ^ e.toNat) m := by
  rw [← modexpFor_eq_modpow he.le, modexpFor_value hm he.le, if_neg he.ne']

/-- The recursive form wraps its base modulo `m` (R106 (c)). -/
theorem modpow_fmod {b e m : Int} (he : 0 ≤ e) (hm : 0 < m) : modpow (fmod b m) e m = modpow b e m := by
  rcases he.eq_or_lt with rfl | hpos
  · simp
  · rw [modpow_of_pos hpos hm, modpow_of_pos hpos hm, fmod_pow_fmod hm]

/-- For exponent 0 and modulus 1 the value is the modulus itself. -/
theorem modpow_range {b e m : Int} (he : 0 ≤ e) (hm : 0 < m) : 0 ≤ modpow b e m ∧ modpow b e m ≤ m := by
  rcases he.eq_or_lt with rfl | hpos
  · rw [modpow_zero]; omega
  · rw [modpow_of_pos hpos hm]
    exact ⟨fmod_nonneg hm, (fmod_lt hm).le⟩

/-- MODEXP completes normally with the value of the recursive form, for every width and all valid operands. -/
theorem exec_modexp_shows {s : State} (hshape : s.shape) (hB : 0 ≤ s.x .B) (hC : 0 < s.x .C) :
    ∃ t, exec .modexp s = .next t ∧ t.ERR = .noError ∧ t.status = 0x00000002 ∧
      t.x .R0 = modpow (s.x .A) (s.x .B) (s.x .C) ∧ t.x .R1 = 0 ∧ t.x .R2 = 0 := by
  obtain ⟨u, hW, hrest⟩ := modexpRest_modexpStart s
  rw [modexpResult, if_neg (by omega), finishWith_normal, modexpFor_eq_modpow hB, modpow_fmod hB hC] at hrest
  obtain ⟨hnonneg, hle⟩ := modpow_range (b := s.x .A) hB hC
  have hfits : Config.fits s.L (modpow (s.x .A) (s.x .B) (s.x .C)) :=
    ⟨fits_zero.1.trans hnonneg, hle.trans (fits_x hshape .C).2⟩
  have hL := shape_L_pos hshape
  rw [← hW.L] at hfits hL
  exact ⟨_, congrArg Host.Outcome.next hrest, rfl, complete_status .., complete_x hL hfits fits_zero fits_zero⟩

/-- Settles O35: a pass unrolls one call of the recursion, and the whole loop all of them. -/
theorem modexpAgreesWithTheRecursion : Obligations.ModexpAgreesWithTheRecursion := by
  refine ⟨fun s hbusy hseq hI hle _ hEX hACC => ?_, modpow_zero, fun b e m he => ?_, fun s hshape hB hC => ?_⟩
  · obtain ⟨i, hi⟩ := Nat.exists_eq_succ_of_ne_zero hI
    rw [engineStep_modexp_pass hbusy hseq hI, modexpPass]
    simp only [hACC, hi, Nat.succ_eq_add_one, Nat.add_sub_cancel]
    exact squareMultiply_modpow (by omega) hEX
  · rw [modpow_eq_squareMultiply he, squareMultiply]
    simp [bit, fdiv]
  · obtain ⟨t, hexec, hERR, -, hR0, -⟩ := exec_modexp_shows hshape hB hC
    exact ⟨t, hexec, hERR, hR0⟩

/-- Settles O32: the value is that of the recursive form, which is 1 for exponent 0 and else the reduced power. -/
theorem modexpMeetsItsContract : Obligations.ModexpMeetsItsContract := by
  intro s hshape hB hC
  obtain ⟨t, hexec, -, hstatus, hR0, hR1, hR2⟩ := exec_modexp_shows hshape hB hC
  refine ⟨t, hexec, hstatus, (exec_next_endsFrom hexec).seq, hR1, hR2, fun hzero => ?_, fun hpos => ?_⟩
  · rw [hR0, hzero, modpow_zero]
  · rw [hR0, modpow_of_pos hpos hC, fmod_pow_fmod hC]
    exact ⟨rfl, rfl, fmod_nonneg hC, fmod_lt hC⟩

end Sys2Proof.Machine
end

section
/-! The inverse finish of the Euclidean loop, for operands that have an inverse (43_modinv.md R117 to R121). -/

namespace Sys2Proof.Machine

/-- One addition of the modulus reduces a coefficient smaller than the modulus in magnitude (43_modinv.md R117). -/
theorem normalizeOnce_range {x m : Int} (h : |x| < m) : 0 ≤ normalizeOnce x m ∧ normalizeOnce x m < m := by
  rw [abs_lt] at h
  unfold normalizeOnce
  split <;> omega

theorem normalizeOnce_modEq (x m : Int) : normalizeOnce x m ≡ x [ZMOD m] := by
  unfold normalizeOnce
  split
  · exact Int.add_modEq_right
  · rfl

/-- With a unit modulo `m` the outcome of the inverse commands is its inverse in `[0, m)`: the Range guard of R117 is never
taken (43_modinv.md R119). -/
theorem invResult_of_coprime {L : Nat} {a m : Int} (hm : 0 < m) (hfits : Config.fits L m) (hgcd : Int.gcd a m = 1) :
    ∃ d, invResult L a m = .normal d 0 0 ∧ 0 ≤ d ∧ d < m ∧ a * d ≡ 1 [ZMOD m] := by
  have hsize := (egcdCore_size (a := a) hm.ne').1
  rw [abs_of_pos hm] at hsize
  obtain ⟨hnonneg, hlt⟩ := normalizeOnce_range hsize
  have hunit : (egcdCore a m).r0 = 1 := by rw [egcdCore_sign_pos hm, hgcd]; rfl
  refine ⟨_, ?_, hnonneg, hlt, ?_⟩
  · rw [invResult, hunit, if_neg (by decide), if_pos ⟨fits_zero.1.trans hnonneg, hlt.le.trans hfits.2⟩]
  · calc a * normalizeOnce (egcdCore a m).s0 m ≡ a * (egcdCore a m).s0 [ZMOD m] := (normalizeOnce_modEq _ m).mul_left a
      _ ≡ a * (egcdCore a m).s0 + m * (egcdCore a m).t0 [ZMOD m] := (Int.add_mul_emod_self_left ..).symm
      _ = 1 := (egcdCore_bezout a m).trans hunit

/-- The state after the normal completion of an inverse command: R0 holds the inverse of `a` in `[0, m)`, R1 and R2 hold 0
(43_modinv.md R119 (b)). -/
structure ShowsInverse (a m : Int) (t : State) : Prop where
  err : t.ERR = .noError
  status : t.status = 0x00000002
  nonneg : 0 ≤ t.x .R0
  lt : t.x .R0 < m
  inverse : a * t.x .R0 ≡ 1 [ZMOD m]
  R1 : t.x .R1 = 0
  R2 : t.x .R2 = 0

/-- INV_LOAD, the loop and the inverse finish complete with the inverse of a unit modulo `m`. -/
theorem egcdRest_invLoad_shows {s : State} {a m : Int} (hL : 1 ≤ s.L) (hm : 0 < m) (hfits : Config.fits s.L m)
    (hgcd : Int.gcd a m = 1) : ShowsInverse a m (egcdRest (invLoad s a m)) := by
  obtain ⟨d, hd, hnonneg, hlt, hinv⟩ := invResult_of_coprime hm hfits hgcd
  obtain ⟨u, hW, hrest⟩ := egcdRest_invLoad s a m
  have hdfits : Config.fits s.L d := ⟨fits_zero.1.trans hnonneg, hlt.le.trans hfits.2⟩
  rw [← hW.L] at hL hdfits
  obtain ⟨hR0, hR1, hR2⟩ := complete_x hL hdfits fits_zero fits_zero
  rw [hrest, hd, finishWith_normal]
  exact ⟨rfl, complete_status .., by rwa [hR0], by rwa [hR0], by rwa [hR0], hR1, hR2⟩

/-- PRIVKEY completes with the inverse of the public exponent modulo the totient when there is one (43_modinv.md R121). -/
theorem exec_privkey_shows {s : State} (hshape : s.shape) (hpos : 0 < totient (s.x .B) (s.x .C))
    (hmax : totient (s.x .B) (s.x .C) ≤ Config.maxInt s.L) (hgcd : Int.gcd (s.x .A) (totient (s.x .B) (s.x .C)) = 1) :
    ∃ t, exec .privkey s = .next t ∧ ShowsInverse (s.x .A) (totient (s.x .B) (s.x .C)) t := by
  rcases privkeyStart_cases s with ⟨hneg, -⟩ | ⟨hrange, -⟩ | ⟨-, hfits, hload⟩
  · omega
  · omega
  · rw [exec, execPrivkey, hload]
    exact ⟨_, rfl, egcdRest_invLoad_shows (shape_L_pos hshape) hpos hfits hgcd⟩

end Sys2Proof.Machine
end

section
/-! RSA (42_modexp.md R108, 43_modinv.md R122): PRIVKEY's exponent inverts the public one modulo the totient, and powers to
both exponents undo each other modulo `p*q`. -/

namespace Sys2Proof.Machine

/-- Fermat: a power whose exponent is 1 modulo `p - 1` is its base modulo the prime `p`, also for multiples of `p`. -/
theorem pow_modEq_self_of_prime {p : Nat} (hp : p.Prime) (a : Int) {n k : Nat} (hn : n = 1 + (p - 1) * k) :
    a ^ n ≡ a [ZMOD p] := by
  by_cases hdvd : (p : Int) ∣ a
  · have hzero : a ≡ 0 [ZMOD p] := Int.modEq_zero_iff_dvd.mpr hdvd
    have hpow : a ^ n ≡ 0 [ZMOD p] := Int.modEq_zero_iff_dvd.mpr (dvd_pow hdvd (by omega))
    exact hpow.trans hzero.symm
  · have hcop : IsCoprime a p := ((Nat.prime_iff_prime_int.mp hp).coprime_iff_not_dvd.mpr hdvd).symm
    have hone := ((Int.ModEq.pow_card_sub_one_eq_one hp hcop).pow k).mul_left a
    rw [one_pow, mul_one] at hone
    rwa [hn, pow_add, pow_one, pow_mul]

/-- Two powers whose exponents are inverse to each other modulo the totient give the base back modulo `p*q`. -/
theorem pow_pow_modEq_self {p q : Nat} (hp : p.Prime) (hq : q.Prime) (hne : p ≠ q) (a : Int) {e d : Nat}
    (hpos : 0 < e * d) (hinv : e * d ≡ 1 [MOD (p - 1) * (q - 1)]) : (a ^ e) ^ d ≡ a [ZMOD p * q] := by
  obtain ⟨k, hk⟩ := (Nat.modEq_iff_dvd' hpos).mp hinv.symm
  have hp' : a ^ (e * d) ≡ a [ZMOD p] :=
    pow_modEq_self_of_prime hp a (k := (q - 1) * k) (by rw [← mul_assoc]; omega)
  have hq' : a ^ (e * d) ≡ a [ZMOD q] :=
    pow_modEq_self_of_prime hq a (k := (p - 1) * k) (by rw [← mul_assoc, mul_comm (q - 1)]; omega)
  have hcop : (p : Int).natAbs.Coprime (q : Int).natAbs := (Nat.coprime_primes hp hq).mpr hne
  rw [← pow_mul]
  exact (Int.modEq_and_modEq_iff_modEq_mul hcop).mp ⟨hp', hq'⟩

theorem totient_natCast {p q : Nat} (hp : p.Prime) (hq : q.Prime) : totient p q = (((p - 1) * (q - 1) : Nat) : Int) := by
  rw [totient, Nat.cast_mul, Nat.cast_pred hp.pos, Nat.cast_pred hq.pos]

/-- The totient of two different primes lies above 1 and below their product. -/
theorem totient_range {p q : Nat} (hp : p.Prime) (hq : q.Prime) (hne : p ≠ q) :
    1 < totient p q ∧ totient p q < p * q := by
  have hp2 : (2 : Int) ≤ p := by exact_mod_cast hp.two_le
  have hq2 : (2 : Int) ≤ q := by exact_mod_cast hq.two_le
  have hne' : (p : Int) ≠ q := by exact_mod_cast hne
  unfold totient
  constructor
  · rcases hne'.lt_or_gt with hlt | hgt <;> nlinarith
  · nlinarith

/-- MODEXP of MODEXP, with exponents inverse to each other modulo the totient, wraps the message modulo `p*q` (R108). -/
theorem modpow_modpow {p q : Nat} (hp : p.Prime) (hq : q.Prime) (hne : p ≠ q) (a : Int) {e d : Int} (he : 0 < e)
    (hd : 0 < d) (hinv : e * d ≡ 1 [ZMOD totient p q]) :
    modpow (modpow a e (p * q)) d (p * q) = fmod a (p * q) := by
  have hn : (0 : Int) < p * q := by exact_mod_cast Nat.mul_pos hp.pos hq.pos
  lift e to Nat using he.le
  lift d to Nat using hd.le
  have hpos : 0 < e * d := by exact_mod_cast mul_pos he hd
  rw [totient_natCast hp hq] at hinv
  have hback := pow_pow_modEq_self hp hq hne a hpos (Int.natCast_modEq_iff.mp (by exact_mod_cast hinv))
  rw [modpow_of_pos he hn, modpow_of_pos hd hn, fmod_pow_fmod hn, fmod_eq_emod hn.le, fmod_eq_emod hn.le]
  exact hback

/-- Settles O52: PRIVKEY's exponent is the inverse modulo the totient, so the two commands are powers that undo each other;
a message in `[0, n)` is its own residue. -/
theorem rsaRoundTrip : Obligations.RsaRoundTrip := by
  intro s p q hshape hp hq hne hB hC hA hgcd hfits
  obtain ⟨hone, hlt⟩ := totient_range hp hq hne
  have hn : (0 : Int) < p * q := by omega
  obtain ⟨k, hk, hshows⟩ := exec_privkey_shows hshape (by rw [hB, hC]; omega)
    (by rw [hB, hC]; exact hlt.le.trans hfits.2) (by rwa [hB, hC])
  rw [hB, hC] at hshows
  have hd : 0 < k.x .R0 := hshows.nonneg.lt_of_ne fun h0 => by
    have hinv := hshows.inverse
    rw [← h0, mul_zero] at hinv
    exact absurd (Int.eq_one_of_dvd_one (by omega) (Int.modEq_zero_iff_dvd.mp hinv.symm)) hone.ne'
  refine ⟨k, hk, hshows.err, fun u v hu hv huB huC hvB hvC => ?_⟩
  obtain ⟨c, hc, hcERR, -, hcR0, -⟩ := exec_modexp_shows hu (by omega) (by omega)
  refine ⟨c, hc, hcERR, fun hvA => ?_⟩
  obtain ⟨m, hm, hmERR, -, hmR0, -⟩ := exec_modexp_shows hv (by omega) (by omega)
  have hwrap : m.x .R0 = fmod (u.x .A) (p * q) := by
    rw [hmR0, hvA, hcR0, hvB, hvC, huB, huC, modpow_modpow hp hq hne _ hA hd hshows.inverse]
  refine ⟨m, hm, hmERR, hwrap, fun hlo hhi => ?_⟩
  rw [hwrap, fmod_eq_emod hn.le, Int.emod_eq_of_lt hlo hhi]

end Sys2Proof.Machine
end

section
/-! MODINV and PRIVKEY (43_modinv.md): their START steps, and each command from START to completion. -/

namespace Sys2Proof.Machine

/-! The START steps (43_modinv.md R116, R121). -/

theorem modinvStart_of_nonpos {s : State} (h : s.x .B ≤ 0) : modinvStart s = raise s .invalidInput := if_pos h

theorem modinvStart_of_pos {s : State} (h : 0 < s.x .B) : modinvStart s = invLoad s (s.x .A) (s.x .B) := if_neg h.not_ge

theorem privkeyStart_of_nonpos {s : State} (h : totient (s.x .B) (s.x .C) ≤ 0) :
    privkeyStart s = raise s .invalidInput :=
  if_pos h

theorem privkeyStart_of_fits {s : State} (hpos : 0 < totient (s.x .B) (s.x .C))
    (hmax : totient (s.x .B) (s.x .C) ≤ Config.maxInt s.L) :
    privkeyStart s = invLoad s (s.x .A) (totient (s.x .B) (s.x .C)) :=
  (if_neg hpos.not_ge).trans (if_pos ((fits_of_pos hpos).mpr hmax))

/-- `MAX` is not negative, so a totient above it is not one that is at most 0. -/
theorem privkeyStart_of_above {s : State} (h : Config.maxInt s.L < totient (s.x .B) (s.x .C)) :
    privkeyStart s = raise s .range :=
  (if_neg (fits_zero.2.trans_lt h).not_ge).trans (if_neg fun hfits => h.not_ge hfits.2)

/-- Settles O28: the START steps are `modinvStart` and `privkeyStart`, whose tests select the error or `INV_LOAD`. -/
theorem inverseStartSteps : Obligations.InverseStartSteps := by
  refine ⟨fun s hstart => ?_, fun s hstart => ?_⟩
  · have hstep : engineStep s = modinvStart s := engineStep_starting hstart
    rw [hstep]
    refine ⟨fun hneg => ?_, modinvStart_of_pos⟩
    rw [modinvStart_of_nonpos hneg]
    exact ⟨raise_status s rfl, raise_zeroResults .., rfl⟩
  · have hstep : engineStep s = privkeyStart s := engineStep_starting hstart
    rw [hstep]
    refine ⟨fun hneg => ?_, fun habove => ?_, privkeyStart_of_fits⟩
    · rw [privkeyStart_of_nonpos hneg]
      exact ⟨raise_status s rfl, raise_zeroResults .., rfl⟩
    · rw [privkeyStart_of_above habove]
      exact ⟨raise_status s rfl, raise_zeroResults .., rfl⟩

/-! The commands: an error of the START step ends them, and else what `INV_LOAD` loaded runs to the inverse finish. -/

theorem exec_modinv_bad {s : State} (h : s.x .B ≤ 0) : exec .modinv s = .next (raise s .invalidInput) := by
  rw [exec, execModinv, modinvStart_of_nonpos h, egcdRest_stop (by simp)]

theorem exec_modinv_load {s : State} (h : 0 < s.x .B) :
    exec .modinv s = .next (egcdRest (invLoad s (s.x .A) (s.x .B))) := by
  rw [exec, execModinv, modinvStart_of_pos h]

theorem exec_privkey_bad {s : State} (h : totient (s.x .B) (s.x .C) ≤ 0) :
    exec .privkey s = .next (raise s .invalidInput) := by
  rw [exec, execPrivkey, privkeyStart_of_nonpos h, egcdRest_stop (by simp)]

theorem exec_privkey_range {s : State} (h : Config.maxInt s.L < totient (s.x .B) (s.x .C)) :
    exec .privkey s = .next (raise s .range) := by
  rw [exec, execPrivkey, privkeyStart_of_above h, egcdRest_stop (by simp)]

theorem exec_privkey_load {s : State} (hpos : 0 < totient (s.x .B) (s.x .C))
    (hmax : totient (s.x .B) (s.x .C) ≤ Config.maxInt s.L) :
    exec .privkey s = .next (egcdRest (invLoad s (s.x .A) (totient (s.x .B) (s.x .C)))) := by
  rw [exec, execPrivkey, privkeyStart_of_fits hpos hmax]

/-- Settles O37: the START step ends the command with InvalidInput, and there is no loop to run. -/
theorem modinvRejectsBadModulus : Obligations.ModinvRejectsBadModulus :=
  fun s hneg => ⟨_, exec_modinv_bad hneg, raise_status s rfl, rfl, rfl, raise_zeroResults ..⟩

/-- The loop keeps the gcd, so an operand that is no unit modulo `m` leaves no unit to the inverse finish, which then ends
with ContractViolation (43_modinv.md R119 (a)). -/
theorem egcdRest_invLoad_rejects (s : State) {a m : Int} (hgcd : Int.gcd a m ≠ 1) :
    ∃ u, egcdRest (invLoad s a m) = raise u .contractViolation := by
  obtain ⟨u, -, hrest⟩ := egcdRest_invLoad s a m
  refine ⟨u, ?_⟩
  rw [hrest, invResult, egcdCore_gcd, if_pos hgcd, finishWith_error u (by decide)]

/-- The congruence of R119 (b) in the engine's own notation. -/
theorem ShowsInverse.fmod_eq {a m : Int} {t : State} (h : ShowsInverse a m t) (hm : 0 < m) :
    fmod (a * t.x .R0) m = fmod 1 m := by
  rw [fmod_eq_emod hm.le, fmod_eq_emod hm.le]
  exact h.inverse

/-- There is one inverse in `[0, m)`, and it depends on the residue of the operand alone (43_modinv.md R119 (d)). -/
theorem ShowsInverse.R0_unique {a a' m : Int} {t t' : State} (h : ShowsInverse a m t) (h' : ShowsInverse a' m t')
    (hres : a ≡ a' [ZMOD m]) : t.x .R0 = t'.x .R0 := by
  have hmod : t.x .R0 ≡ t'.x .R0 [ZMOD m] :=
    calc t.x .R0 = t.x .R0 * 1 := (mul_one _).symm
      _ ≡ t.x .R0 * (a' * t'.x .R0) [ZMOD m] := (h'.inverse.mul_left _).symm
      _ ≡ t.x .R0 * (a * t'.x .R0) [ZMOD m] := ((hres.mul_right _).mul_left _).symm
      _ = a * t.x .R0 * t'.x .R0 := by ring
      _ ≡ 1 * t'.x .R0 [ZMOD m] := h.inverse.mul_right _
      _ = t'.x .R0 := one_mul _
  rwa [Int.ModEq, Int.emod_eq_of_lt h.nonneg h.lt, Int.emod_eq_of_lt h'.nonneg h'.lt] at hmod

/-- INV_LOAD, the loop and the inverse finish on operands with the same residue end with the same error and R0, on builds of
any width (43_modinv.md R119 (d)). -/
theorem egcdRest_invLoad_residue {s t : State} {a a' m : Int} (hs : 1 ≤ s.L) (ht : 1 ≤ t.L) (hm : 0 < m)
    (hfits : Config.fits s.L m) (hfits' : Config.fits t.L m) (hres : fmod a m = fmod a' m) :
    (egcdRest (invLoad s a m)).ERR = (egcdRest (invLoad t a' m)).ERR ∧
    (egcdRest (invLoad s a m)).x .R0 = (egcdRest (invLoad t a' m)).x .R0 := by
  have hgcd : Int.gcd a m = Int.gcd a' m := by rw [← gcd_fmod a, ← gcd_fmod a', hres]
  by_cases hunit : Int.gcd a m = 1
  · have hinv := egcdRest_invLoad_shows hs hm hfits hunit
    have hinv' := egcdRest_invLoad_shows ht hm hfits' (hgcd.symm.trans hunit)
    rw [fmod_eq_emod hm.le, fmod_eq_emod hm.le] at hres
    exact ⟨hinv.err.trans hinv'.err.symm, hinv.R0_unique hinv' hres⟩
  · obtain ⟨u, hu⟩ := egcdRest_invLoad_rejects s hunit
    obtain ⟨v, hv⟩ := egcdRest_invLoad_rejects t (hgcd ▸ hunit)
    rw [hu, hv]
    exact ⟨rfl, (raise_zeroResults u _).1.trans (raise_zeroResults v _).1.symm⟩

/-- Settles O36: the loop's sign and size bounds give (a) and (c), the inverse finish (b), and uniqueness of the inverse (d). -/
theorem modinvMeetsItsContract : Obligations.ModinvMeetsItsContract := by
  refine ⟨fun s hshape hB => ⟨(egcdCore_size_pos hB).1, fun _ => ?_, fun hunit => ?_, fun hunit => ?_⟩, ?_⟩
  · have hsize := (egcdCore_size (a := s.x .A) hB.ne').1
    rwa [abs_of_pos hB, abs_lt] at hsize
  · have hexec := exec_modinv_load hB
    have hinv := egcdRest_invLoad_shows (shape_L_pos hshape) hB (fits_x hshape .B) hunit
    exact ⟨_, hexec, hinv.status, (exec_next_endsFrom hexec).seq, hinv.nonneg, hinv.lt, hinv.fmod_eq hB, hinv.R1, hinv.R2⟩
  · obtain ⟨u, hu⟩ := egcdRest_invLoad_rejects s hunit
    exact ⟨_, (exec_modinv_load hB).trans (congrArg _ hu), raise_status u rfl, rfl, raise_zeroResults ..⟩
  · intro s t s' t' hs ht hB heq hres hs' ht'
    have hfits : Config.fits t.L (s.x .B) := heq ▸ fits_x ht .B
    obtain rfl := Host.Outcome.next.inj (hs'.symm.trans (exec_modinv_load hB))
    obtain rfl := Host.Outcome.next.inj (ht'.symm.trans (exec_modinv_load (heq ▸ hB)))
    rw [heq]
    exact egcdRest_invLoad_residue (shape_L_pos hs) (shape_L_pos ht) hB (fits_x hs .B) hfits hres

/-- Settles O38: the START step rejects a totient outside `1` to `MAX`; any other is the modulus of the inverse finish. -/
theorem privkeyMeetsItsContract : Obligations.PrivkeyMeetsItsContract := by
  rintro s phi hshape rfl
  refine ⟨fun hneg => ?_, fun habove => ?_, fun hpos hmax hunit => ?_, fun hpos hmax hunit => ?_⟩
  · exact ⟨_, exec_privkey_bad hneg, raise_status s rfl, rfl, raise_zeroResults ..⟩
  · exact ⟨_, exec_privkey_range habove, raise_status s rfl, rfl, raise_zeroResults ..⟩
  · obtain ⟨t, hexec, hinv⟩ := exec_privkey_shows hshape hpos hmax hunit
    exact ⟨t, hexec, hinv.status, (exec_next_endsFrom hexec).seq, hinv.nonneg, hinv.lt, hinv.fmod_eq hpos, hinv.R1, hinv.R2⟩
  · obtain ⟨u, hu⟩ := egcdRest_invLoad_rejects s hunit
    exact ⟨_, (exec_privkey_load hpos hmax).trans (congrArg _ hu), raise_status u rfl, rfl, raise_zeroResults ..⟩

/-- Settles O39: on one build both commands load the same loop, and end with the outcome of the same inverse finish. -/
theorem privkeyIsModinvOfTheTotient : Obligations.PrivkeyIsModinvOfTheTotient := by
  intro s u s' u' _ hu hL hA hB hpos hs' hu'
  have hphi : u.x .B = totient (s.x .B) (s.x .C) := hB
  have hmax : totient (s.x .B) (s.x .C) ≤ Config.maxInt s.L := by rw [← hphi, ← hL]; exact (fits_x hu .B).2
  obtain ⟨v, hv, hsv⟩ := egcdRest_invLoad s (s.x .A) (totient (s.x .B) (s.x .C))
  obtain ⟨w, hw, huw⟩ := egcdRest_invLoad u (u.x .A) (u.x .B)
  obtain rfl := Host.Outcome.next.inj (hs'.symm.trans (exec_privkey_load (hphi ▸ hpos) hmax))
  obtain rfl := Host.Outcome.next.inj (hu'.symm.trans (exec_modinv_load hpos))
  rw [hsv, huw, hphi, hA, hL]
  exact finishWith_congr (by rw [hv.L, hw.L, hL]) _

end Sys2Proof.Machine
end

section
/-! The errors a command ends with (60_exceptions.md R131), read off its result function. -/

namespace Sys2Proof.Machine

theorem finishWith_ERR (s : State) (r : Result) : (finishWith s r).ERR = r.err := by
  unfold finishWith
  split
  · next hnormal => rw [complete_ERR, hnormal]
  · rw [raise_ERR]

/-- A command ends with the error of `Exec` on its operands (40_command_lifecycle.md R82). -/
theorem exec_ERR {i : Instr} {s t : State} (h : exec i s = .next t) :
    t.ERR = (execResult s.L (encode i) (s.x .A) (s.x .B) (s.x .C)).err := by
  obtain ⟨u, -, hu⟩ := exec_finishWith i s
  obtain rfl := Host.Outcome.next.inj (h.symm.trans hu)
  exact finishWith_ERR u _

/-- EGCD never ends with Range (41_egcd.md R96). -/
theorem egcdResult_err {L : Nat} {a b : Int} (hL : 1 ≤ L) (ha : Config.fits L a) (hb : Config.fits L b) :
    (egcdResult L a b).err = if a = 0 ∧ b = 0 then .invalidInput else .noError := by
  by_cases hzero : a = 0 ∧ b = 0
  · rw [egcdResult, if_pos hzero, if_pos hzero, Result.error]
  · rw [egcdResult_eq_normal hL ha hb hzero, if_neg hzero, Result.normal]

theorem modexpResult_err (b e m : Int) :
    (modexpResult b e m).err = if e < 0 ∨ m ≤ 0 then .invalidInput else .noError := by
  rw [modexpResult, apply_ite Result.err, Result.error, Result.normal]

/-- The inverse finish never ends with Range when its modulus is positive and fits (43_modinv.md R119). -/
theorem invResult_err {L : Nat} {a m : Int} (hm : 0 < m) (hfits : Config.fits L m) :
    (invResult L a m).err = if Int.gcd a m ≠ 1 then .contractViolation else .noError := by
  by_cases hunit : Int.gcd a m = 1
  · obtain ⟨d, hd, -⟩ := invResult_of_coprime hm hfits hunit
    rw [hd, if_neg (not_not.mpr hunit), Result.normal]
  · rw [invResult, egcdCore_gcd, if_pos hunit, if_pos hunit, Result.error]

theorem modinvResult_err {L : Nat} {a m : Int} (hfits : Config.fits L m) :
    (modinvResult L a m).err = if m ≤ 0 then .invalidInput
      else if Int.gcd a m ≠ 1 then .contractViolation else .noError := by
  by_cases hm : m ≤ 0
  · rw [modinvResult, if_pos hm, if_pos hm, Result.error]
  · rw [modinvResult, if_neg hm, if_neg hm, invResult_err (not_le.mp hm) hfits]

theorem privkeyResult_err (L : Nat) (e p q : Int) :
    (privkeyResult L e p q).err = if totient p q ≤ 0 then .invalidInput
      else if Config.maxInt L < totient p q then .range
      else if Int.gcd e (totient p q) ≠ 1 then .contractViolation else .noError := by
  by_cases hphi : totient p q ≤ 0
  · rw [privkeyResult, if_pos hphi, if_pos hphi, Result.error]
  · by_cases habove : Config.maxInt L < totient p q
    · rw [privkeyResult, if_neg hphi, if_pos habove, if_neg hphi, if_pos habove, Result.error]
    · have hpos : 0 < totient p q := not_le.mp hphi
      rw [privkeyResult, if_neg hphi, if_neg habove, if_neg hphi, if_neg habove,
        invResult_err hpos ((fits_of_pos hpos).mpr (not_lt.mp habove))]

/-- Settles O40: a command ends with the error of its result function, and operands of a legal shape fit, so the Range
guards of the finishes are never taken. -/
theorem errorsAreExactlyTheTabulatedOnes : Obligations.ErrorsAreExactlyTheTabulatedOnes := by
  intro s t hshape
  refine ⟨fun h => ?_, fun h => ?_, fun h => ?_, fun h => ?_⟩
  · exact (exec_ERR h).trans (egcdResult_err (shape_L_pos hshape) (fits_x hshape .A) (fits_x hshape .B))
  · exact (exec_ERR h).trans (modexpResult_err ..)
  · exact (exec_ERR h).trans (modinvResult_err (fits_x hshape .B))
  · exact (exec_ERR h).trans (privkeyResult_err ..)

end Sys2Proof.Machine
end

section
/-! The steps of the three commands that share the Euclidean loop: START, the passes, and the finishing step (41_egcd.md R95,
70_reset_and_hazards.md R168). -/

namespace Sys2Proof.Machine

/-- Past its checks a START step leaves the engine in the Euclidean loop, with the second integer in RB (41_egcd.md R91,
43_modinv.md R116, R121). -/
theorem startOf_enters_euclid {i : Instr} {s : State}
    (hchecks : (i = .egcd ∧ ¬(s.x .A = 0 ∧ s.x .B = 0)) ∨ (i = .modinv ∧ 0 < s.x .B) ∨
      (i = .privkey ∧ 0 < totient (s.x .B) (s.x .C) ∧ totient (s.x .B) (s.x .C) ≤ Config.maxInt s.L)) :
    WorksFrom s (startOf i s) ∧ (startOf i s).SEQ = .EGCD_ITER ∧ (startOf i s).RB = s.secondOperand i := by
  rcases hchecks with ⟨rfl, hzero⟩ | ⟨rfl, hpos⟩ | ⟨rfl, hpos, hmax⟩
  · rcases egcdStart_cases s with ⟨hA, hB, -⟩ | ⟨-, hW, hseq, -, hvars⟩
    · exact absurd ⟨hA, hB⟩ hzero
    · exact ⟨hW, hseq, congrArg EuclidVars.r1 hvars⟩
  · rw [startOf, modinvStart_of_pos hpos]
    exact ⟨invLoad_worksFrom .., rfl, rfl⟩
  · rw [startOf, privkeyStart_of_fits hpos hmax]
    exact ⟨invLoad_worksFrom .., rfl, rfl⟩

/-- In the Euclidean loop a step that leaves the engine busy is a pass. -/
theorem engineStep_egcd_busy {s : State} (hbusy : s.BUSY = true) (hseq : s.SEQ = .EGCD_ITER)
    (hnext : (engineStep s).BUSY = true) : engineStep s = euclidPass s := by
  rw [engineStep_egcd hbusy hseq] at hnext ⊢
  refine egcdIter_pass fun hRB => ?_
  simp [(egcdIter_endsFrom hRB).busy] at hnext

/-- The engine leaves the Euclidean loop only by the completion. -/
theorem EngineRun.seq_egcd {n : Nat} {s t : State} (hrun : EngineRun n s t) (hseq : s.SEQ = .EGCD_ITER) :
    ∀ m, m < n → (engineSteps m s).SEQ = .EGCD_ITER := by
  induction n generalizing s with
  | zero => exact fun m hm => absurd hm m.not_lt_zero
  | succ n ih =>
    intro m hm
    cases m with
    | zero => exact hseq
    | succ m =>
      have hpass : engineStep s = euclidPass s := engineStep_egcd_busy (hrun.busy 0 n.succ_pos) hseq
        (hrun.busy 1 (by omega))
      exact ih hrun.tail (by rw [hpass]; exact hseq) m (Nat.lt_of_succ_lt_succ hm)

/-- The loop takes at most `|RB|` passes before its finishing step, and none exactly when RB is 0. -/
theorem engineRun_egcdRest_passes {s : State} (hbusy : s.BUSY = true) (hseq : s.SEQ = .EGCD_ITER) :
    ∃ n, n ≤ s.RB.natAbs ∧ (s.RB = 0 ↔ n = 0) ∧ EngineRun (n + 1) s (egcdRest s) := by
  obtain ⟨n, hn, hzero, hm, hend⟩ := engineSteps_egcd s.RB.natAbs s hbusy hseq (le_refl _)
  refine ⟨n, hn, ⟨hzero, ?_⟩, hend, hm⟩
  rintro rfl
  by_contra hRB
  have hpass : euclidPass s = egcdRest s := by
    rw [← egcdIter_pass hRB, ← engineStep_egcd hbusy hseq]
    exact hend
  have hidle : (euclidPass s).BUSY = false := by rw [hpass]; exact (egcdRest_endsFrom hseq).busy
  exact absurd (hbusy.symm.trans hidle) (by decide)

/-- Settles O31: after the START step the engine is in the loop, whose passes and finishing step end the command. -/
theorem euclidCommandsStepCount : Obligations.EuclidCommandsStepCount := by
  intro i s hstart hchecks
  obtain ⟨hW, hseq, hRB⟩ := startOf_enters_euclid hchecks
  obtain ⟨n, hn, hzero, hloop⟩ := engineRun_egcdRest_passes (hW.busy.trans hstart.1) hseq
  have hE : EndsFrom (startOf i s) (egcdRest (startOf i s)) := egcdRest_endsFrom hseq
  rw [hRB] at hn hzero
  have hloopSeq := hloop.seq_egcd hseq
  rw [← engineStep_starting hstart] at hloop hloopSeq hE
  have hrun := EngineRun.cons hstart.1 hloop
  rw [← hrun.ends] at hE
  refine ⟨n, Nat.le_succ_of_le hn, hzero, hrun.busy, fun m hpos hm => ?_, hE.busy, hE.done, hE.seq⟩
  obtain ⟨m, rfl⟩ := Nat.exists_eq_add_one_of_ne_zero hpos.ne'
  exact hloopSeq m (Nat.lt_of_succ_lt_succ hm)

end Sys2Proof.Machine
end
